-- ==== Sys2Proof/Word.lean ====
section
/-! DEFINITION. The word types of the core (00_scope.md R8, R11): every value is unsigned, 8 bits for
registers, timers and memory cells, 16 bits for I, pc, sp and the instruction word, 12 bits for NNN. -/

namespace Sys2Proof

/-- A register, timer or memory cell: 8 bits, unsigned (20_memory.md R60, 10_state.md R20). -/
abbrev Byte := BitVec 8

/-- The width of I, pc, sp and an instruction word: 16 bits (00_scope.md R8). -/
abbrev Word := BitVec 16

/-- The `NNN` field: "low 12 bits, an address/constant" (30_encoding.md R91). -/
abbrev Addr12 := BitVec 12

/-- The index of a general register, 0x0 to 0xF (10_state.md R20). -/
abbrev Reg := Fin 16

end Sys2Proof
end

