-- ==== Sys2Proof/Syntax.lean ====
section
/-! DEFINITION. The 34 instructions of the opcode map (30_encoding.md R103), one constructor a row. -/

namespace Sys2Proof

/-- An instruction as decoded: register indices `x`, `y`, byte `nn`, 12-bit `nnn`, row count `n`
(30_encoding.md R91, R93). Nibbles the decoder does not examine (X of 00E0 and 00EE, R95; Y of 8XYE,
42_register_alu.md R180) are no operands and are not kept (assumption log 17). -/
inductive Instr where
  /-- 00E0, `CLS` (43_display.md R211) -/
  | cls
  /-- 00EE, `RET` (41_control_flow.md R142) -/
  | ret
  /-- 1NNN, `JP NNN` (41_control_flow.md R140) -/
  | jp (nnn : Addr12)
  /-- 2NNN, `CALL NNN` (41_control_flow.md R141) -/
  | call (nnn : Addr12)
  /-- 3XNN, `SE VX, NN` (41_control_flow.md R144) -/
  | seImm (x : Reg) (nn : Byte)
  /-- 4XNN, `SNE VX, NN` (41_control_flow.md R145) -/
  | sneImm (x : Reg) (nn : Byte)
  /-- 5XY0, `SE VX, VY` (41_control_flow.md R146) -/
  | seReg (x y : Reg)
  /-- 6XNN, `LD VX, NN` (42_register_alu.md R170) -/
  | ldImm (x : Reg) (nn : Byte)
  /-- 7XNN, `ADD VX, NN` (42_register_alu.md R171) -/
  | addImm (x : Reg) (nn : Byte)
  /-- 8XY0, `LD VX, VY` (42_register_alu.md R172) -/
  | ldReg (x y : Reg)
  /-- 8XY1, `OR VX, VY` (42_register_alu.md R173) -/
  | or (x y : Reg)
  /-- 8XY2, `AND VX, VY` (42_register_alu.md R174) -/
  | and (x y : Reg)
  /-- 8XY3, `XOR VX, VY` (42_register_alu.md R175) -/
  | xor (x y : Reg)
  /-- 8XY4, `ADD VX, VY` (42_register_alu.md R176) -/
  | addReg (x y : Reg)
  /-- 8XY5, `SUB VX, VY` (42_register_alu.md R177) -/
  | sub (x y : Reg)
  /-- 8XY6, `SHR VX, VY` (42_register_alu.md R178) -/
  | shr (x y : Reg)
  /-- 8XY7, `SUBN VX, VY` (42_register_alu.md R179) -/
  | subn (x y : Reg)
  /-- 8XYE, `SHL VX, VY`; the Y nibble is ignored (42_register_alu.md R180) -/
  | shl (x : Reg)
  /-- 9XY0, `SNE VX, VY` (41_control_flow.md R147) -/
  | sneReg (x y : Reg)
  /-- ANNN, `LD I, NNN` (46_index_memory.md R260) -/
  | ldI (nnn : Addr12)
  /-- BNNN, `JP V0, NNN` (41_control_flow.md R143) -/
  | jpV0 (nnn : Addr12)
  /-- CXNN, `RND VX, NN` (42_register_alu.md R181) -/
  | rnd (x : Reg) (nn : Byte)
  /-- DXYN, `DRW VX, VY, N` (43_display.md R212) -/
  | drw (x y : Reg) (n : Nat)
  /-- EX9E, `SKP VX` (44_keys.md R230) -/
  | skp (x : Reg)
  /-- EXA1, `SKNP VX` (44_keys.md R231) -/
  | sknp (x : Reg)
  /-- FX07, `LD VX, DT` (45_timers.md R250) -/
  | ldFromDt (x : Reg)
  /-- FX0A, `LD VX, K` (44_keys.md R232) -/
  | ldKey (x : Reg)
  /-- FX15, `LD DT, VX` (45_timers.md R251) -/
  | ldToDt (x : Reg)
  /-- FX18, `LD ST, VX` (45_timers.md R252) -/
  | ldToSt (x : Reg)
  /-- FX1E, `ADD I, VX` (46_index_memory.md R261) -/
  | addI (x : Reg)
  /-- FX29, `LD F, VX` (46_index_memory.md R262) -/
  | ldFont (x : Reg)
  /-- FX33, `LD B, VX` (46_index_memory.md R263) -/
  | ldBcd (x : Reg)
  /-- FX55, `LD [I], VX` (46_index_memory.md R264) -/
  | store (x : Reg)
  /-- FX65, `LD VX, [I]` (46_index_memory.md R265) -/
  | load (x : Reg)
  deriving DecidableEq, Repr

end Sys2Proof
end

