-- ==== Sys2Proof/WellFormed.lean ====
section
/-! DEFINITION. Which instructions have an encoding. Register indices, `nn` and `nnn` carry their width
in their type; the one operand that does not is the row count of DXYN. -/

namespace Sys2Proof

/-- An instruction is well formed when its operands fit their fields: the row count of DXYN is the
4-bit field N, "the number of rows, 0 to 15" (43_display.md R212). -/
def Instr.WellFormed : Instr → Bool
  | .drw _ _ n => decide (n ≤ 15)
  | .cls => true
  | .ret => true
  | .jp _ => true
  | .call _ => true
  | .seImm _ _ => true
  | .sneImm _ _ => true
  | .seReg _ _ => true
  | .ldImm _ _ => true
  | .addImm _ _ => true
  | .ldReg _ _ => true
  | .or _ _ => true
  | .and _ _ => true
  | .xor _ _ => true
  | .addReg _ _ => true
  | .sub _ _ => true
  | .shr _ _ => true
  | .subn _ _ => true
  | .shl _ => true
  | .sneReg _ _ => true
  | .ldI _ => true
  | .jpV0 _ => true
  | .rnd _ _ => true
  | .skp _ => true
  | .sknp _ => true
  | .ldFromDt _ => true
  | .ldKey _ => true
  | .ldToDt _ => true
  | .ldToSt _ => true
  | .addI _ => true
  | .ldFont _ => true
  | .ldBcd _ => true
  | .store _ => true
  | .load _ => true

end Sys2Proof
end

