-- ==== Sys2Proof/Decode.lean ====
section
/-! DEFINITION. The decoder (30_encoding.md R90 to R101), total on any word and any bytes, rejecting by
name; after it the encoder, and the opcode map of R103 as masks and patterns. -/

namespace Sys2Proof

/-- Why bytes are no instruction: one name for each class of unknown word (30_encoding.md R101), and one
for fewer bytes than the two that an instruction has (R90). -/
inductive DecodeError where
  /-- group 0x0 with NN neither 0xE0 nor 0xEE (R95) -/
  | unknownGroup0
  /-- group 0x5 with N not 0 (R99) -/
  | unknownGroup5
  /-- group 0x8 with N in 0x8 to 0xD or 0xF (R96) -/
  | unknownGroup8
  /-- group 0x9 with N not 0 (R99) -/
  | unknownGroup9
  /-- group 0xE with NN neither 0x9E nor 0xA1 (R97) -/
  | unknownGroupE
  /-- group 0xF with NN not one of the nine (R98) -/
  | unknownGroupF
  /-- fewer than two bytes -/
  | truncated
  deriving DecidableEq, Repr

/-! ## Fields (R91) -/

/-- `G`, bits 15:12. -/
def fieldG (w : Word) : Fin 16 := ⟨(w.extractLsb' 12 4).toNat, (w.extractLsb' 12 4).isLt⟩

/-- `X`, bits 11:8. -/
def fieldX (w : Word) : Reg := ⟨(w.extractLsb' 8 4).toNat, (w.extractLsb' 8 4).isLt⟩

/-- `Y`, bits 7:4. -/
def fieldY (w : Word) : Reg := ⟨(w.extractLsb' 4 4).toNat, (w.extractLsb' 4 4).isLt⟩

/-- `N`, bits 3:0, "a sub-opcode or count". -/
def fieldN (w : Word) : Nat := (w.extractLsb' 0 4).toNat

/-- `NN`, bits 7:0. -/
def fieldNN (w : Word) : Byte := w.extractLsb' 0 8

/-- `NNN`, bits 11:0. -/
def fieldNNN (w : Word) : Addr12 := w.extractLsb' 0 12

/-! ## Dispatch (R94 to R100) -/

/-- Group 0x0: `NN` selects, the X nibble is not examined (R95). -/
def decodeGroup0 (w : Word) : Except DecodeError Instr :=
  if fieldNN w = 0xE0 then .ok .cls
  else if fieldNN w = 0xEE then .ok .ret
  else .error .unknownGroup0

/-- Group 0x5: `N` must be 0 (R99). -/
def decodeGroup5 (w : Word) : Except DecodeError Instr :=
  if fieldN w = 0 then .ok (.seReg (fieldX w) (fieldY w)) else .error .unknownGroup5

/-- Group 0x8: `N` selects one of nine arithmetic/logic operations (R96). -/
def decodeGroup8 (w : Word) : Except DecodeError Instr :=
  if fieldN w = 0x0 then .ok (.ldReg (fieldX w) (fieldY w))
  else if fieldN w = 0x1 then .ok (.or (fieldX w) (fieldY w))
  else if fieldN w = 0x2 then .ok (.and (fieldX w) (fieldY w))
  else if fieldN w = 0x3 then .ok (.xor (fieldX w) (fieldY w))
  else if fieldN w = 0x4 then .ok (.addReg (fieldX w) (fieldY w))
  else if fieldN w = 0x5 then .ok (.sub (fieldX w) (fieldY w))
  else if fieldN w = 0x6 then .ok (.shr (fieldX w) (fieldY w))
  else if fieldN w = 0x7 then .ok (.subn (fieldX w) (fieldY w))
  else if fieldN w = 0xE then .ok (.shl (fieldX w))
  else .error .unknownGroup8

/-- Group 0x9: `N` must be 0 (R99). -/
def decodeGroup9 (w : Word) : Except DecodeError Instr :=
  if fieldN w = 0 then .ok (.sneReg (fieldX w) (fieldY w)) else .error .unknownGroup9

/-- Group 0xE: `NN` selects between the two key skips (R97). -/
def decodeGroupE (w : Word) : Except DecodeError Instr :=
  if fieldNN w = 0x9E then .ok (.skp (fieldX w))
  else if fieldNN w = 0xA1 then .ok (.sknp (fieldX w))
  else .error .unknownGroupE

/-- Group 0xF: `NN` selects one of nine timer/memory/BCD operations (R98). -/
def decodeGroupF (w : Word) : Except DecodeError Instr :=
  if fieldNN w = 0x07 then .ok (.ldFromDt (fieldX w))
  else if fieldNN w = 0x0A then .ok (.ldKey (fieldX w))
  else if fieldNN w = 0x15 then .ok (.ldToDt (fieldX w))
  else if fieldNN w = 0x18 then .ok (.ldToSt (fieldX w))
  else if fieldNN w = 0x1E then .ok (.addI (fieldX w))
  else if fieldNN w = 0x29 then .ok (.ldFont (fieldX w))
  else if fieldNN w = 0x33 then .ok (.ldBcd (fieldX w))
  else if fieldNN w = 0x55 then .ok (.store (fieldX w))
  else if fieldNN w = 0x65 then .ok (.load (fieldX w))
  else .error .unknownGroupF

/-- The decoder: "The top 4 bits select one of 16 primary opcode groups" (R91, R94); ten groups hold one
instruction each (R100); the last arm is group 0xF, the only one left. It reads no state other than `w` (40_fetch_execute.md R123). -/
def decode (w : Word) : Except DecodeError Instr :=
  match fieldG w with
  | 0x0 => decodeGroup0 w
  | 0x1 => .ok (.jp (fieldNNN w))
  | 0x2 => .ok (.call (fieldNNN w))
  | 0x3 => .ok (.seImm (fieldX w) (fieldNN w))
  | 0x4 => .ok (.sneImm (fieldX w) (fieldNN w))
  | 0x5 => decodeGroup5 w
  | 0x6 => .ok (.ldImm (fieldX w) (fieldNN w))
  | 0x7 => .ok (.addImm (fieldX w) (fieldNN w))
  | 0x8 => decodeGroup8 w
  | 0x9 => decodeGroup9 w
  | 0xA => .ok (.ldI (fieldNNN w))
  | 0xB => .ok (.jpV0 (fieldNNN w))
  | 0xC => .ok (.rnd (fieldX w) (fieldNN w))
  | 0xD => .ok (.drw (fieldX w) (fieldY w) (fieldN w))
  | 0xE => decodeGroupE w
  | _ => decodeGroupF w

/-- An instruction's word from its two bytes, the first holding bits 15 to 8 (R90). -/
def wordOf (hi lo : Byte) : Word := hi ++ lo

/-- Decode the first instruction of a byte sequence, and give the bytes after it. The ISA has one
instruction length, two bytes (R90). -/
def decodeBytes : List Byte → Except DecodeError (Instr × List Byte)
  | hi :: lo :: rest => (decode (wordOf hi lo)).map fun i => (i, rest)
  | _ => .error .truncated

/-! ## Encoding -/

/-- A word from its four nibbles, G first (R91). -/
def wordGXYN (g x y n : BitVec 4) : Word := g ++ x ++ y ++ n

/-- A register index as its 4-bit field. -/
def nibbleOf (r : Reg) : BitVec 4 := BitVec.ofNat 4 r.val

/-- A word of format `G X NN` (R93). -/
def wordGXNN (g : BitVec 4) (x : Reg) (nn : Byte) : Word := g ++ nibbleOf x ++ nn

/-- A word of format `G NNN` (R93). -/
def wordGNNN (g : BitVec 4) (nnn : Addr12) : Word := g ++ nnn

/-- The word of an instruction, by the patterns of R103; ignored nibbles are written as 0, as in the
spec's own patterns 00E0 and 00EE. -/
def encode : Instr → Word
  | .cls => wordGXNN 0x0 0 0xE0
  | .ret => wordGXNN 0x0 0 0xEE
  | .jp nnn => wordGNNN 0x1 nnn
  | .call nnn => wordGNNN 0x2 nnn
  | .seImm x nn => wordGXNN 0x3 x nn
  | .sneImm x nn => wordGXNN 0x4 x nn
  | .seReg x y => wordGXYN 0x5 (nibbleOf x) (nibbleOf y) 0x0
  | .ldImm x nn => wordGXNN 0x6 x nn
  | .addImm x nn => wordGXNN 0x7 x nn
  | .ldReg x y => wordGXYN 0x8 (nibbleOf x) (nibbleOf y) 0x0
  | .or x y => wordGXYN 0x8 (nibbleOf x) (nibbleOf y) 0x1
  | .and x y => wordGXYN 0x8 (nibbleOf x) (nibbleOf y) 0x2
  | .xor x y => wordGXYN 0x8 (nibbleOf x) (nibbleOf y) 0x3
  | .addReg x y => wordGXYN 0x8 (nibbleOf x) (nibbleOf y) 0x4
  | .sub x y => wordGXYN 0x8 (nibbleOf x) (nibbleOf y) 0x5
  | .shr x y => wordGXYN 0x8 (nibbleOf x) (nibbleOf y) 0x6
  | .subn x y => wordGXYN 0x8 (nibbleOf x) (nibbleOf y) 0x7
  | .shl x => wordGXYN 0x8 (nibbleOf x) 0x0 0xE
  | .sneReg x y => wordGXYN 0x9 (nibbleOf x) (nibbleOf y) 0x0
  | .ldI nnn => wordGNNN 0xA nnn
  | .jpV0 nnn => wordGNNN 0xB nnn
  | .rnd x nn => wordGXNN 0xC x nn
  | .drw x y n => wordGXYN 0xD (nibbleOf x) (nibbleOf y) (BitVec.ofNat 4 n)
  | .skp x => wordGXNN 0xE x 0x9E
  | .sknp x => wordGXNN 0xE x 0xA1
  | .ldFromDt x => wordGXNN 0xF x 0x07
  | .ldKey x => wordGXNN 0xF x 0x0A
  | .ldToDt x => wordGXNN 0xF x 0x15
  | .ldToSt x => wordGXNN 0xF x 0x18
  | .addI x => wordGXNN 0xF x 0x1E
  | .ldFont x => wordGXNN 0xF x 0x29
  | .ldBcd x => wordGXNN 0xF x 0x33
  | .store x => wordGXNN 0xF x 0x55
  | .load x => wordGXNN 0xF x 0x65

/-- An instruction's two bytes in memory order, the high byte first (R90). -/
def encodeBytes (i : Instr) : List Byte := [(encode i).extractLsb' 8 8, (encode i).extractLsb' 0 8]

/-! ## The opcode map as masks and patterns (R103) -/

/-- A row of the opcode map: `w` is the row's instruction when `w & mask = pattern` (R103). -/
structure OpcodeRow where
  pattern : Word
  mask : Word
  deriving DecidableEq, Repr

/-- The row of an instruction in the opcode map (R103). -/
def opcodeRow : Instr → OpcodeRow
  | .cls => ⟨0x00E0, 0xF0FF⟩
  | .ret => ⟨0x00EE, 0xF0FF⟩
  | .jp _ => ⟨0x1000, 0xF000⟩
  | .call _ => ⟨0x2000, 0xF000⟩
  | .seImm _ _ => ⟨0x3000, 0xF000⟩
  | .sneImm _ _ => ⟨0x4000, 0xF000⟩
  | .seReg _ _ => ⟨0x5000, 0xF00F⟩
  | .ldImm _ _ => ⟨0x6000, 0xF000⟩
  | .addImm _ _ => ⟨0x7000, 0xF000⟩
  | .ldReg _ _ => ⟨0x8000, 0xF00F⟩
  | .or _ _ => ⟨0x8001, 0xF00F⟩
  | .and _ _ => ⟨0x8002, 0xF00F⟩
  | .xor _ _ => ⟨0x8003, 0xF00F⟩
  | .addReg _ _ => ⟨0x8004, 0xF00F⟩
  | .sub _ _ => ⟨0x8005, 0xF00F⟩
  | .shr _ _ => ⟨0x8006, 0xF00F⟩
  | .subn _ _ => ⟨0x8007, 0xF00F⟩
  | .shl _ => ⟨0x800E, 0xF00F⟩
  | .sneReg _ _ => ⟨0x9000, 0xF00F⟩
  | .ldI _ => ⟨0xA000, 0xF000⟩
  | .jpV0 _ => ⟨0xB000, 0xF000⟩
  | .rnd _ _ => ⟨0xC000, 0xF000⟩
  | .drw _ _ _ => ⟨0xD000, 0xF000⟩
  | .skp _ => ⟨0xE09E, 0xF0FF⟩
  | .sknp _ => ⟨0xE0A1, 0xF0FF⟩
  | .ldFromDt _ => ⟨0xF007, 0xF0FF⟩
  | .ldKey _ => ⟨0xF00A, 0xF0FF⟩
  | .ldToDt _ => ⟨0xF015, 0xF0FF⟩
  | .ldToSt _ => ⟨0xF018, 0xF0FF⟩
  | .addI _ => ⟨0xF01E, 0xF0FF⟩
  | .ldFont _ => ⟨0xF029, 0xF0FF⟩
  | .ldBcd _ => ⟨0xF033, 0xF0FF⟩
  | .store _ => ⟨0xF055, 0xF0FF⟩
  | .load _ => ⟨0xF065, 0xF0FF⟩

/-- The 34 rows in the order of R103, each named by an instruction of it (operands 0). -/
def opcodeMap : List OpcodeRow :=
  [.cls, .ret, .jp 0, .call 0, .seImm 0 0, .sneImm 0 0, .seReg 0 0, .ldImm 0 0, .addImm 0 0,
   .ldReg 0 0, .or 0 0, .and 0 0, .xor 0 0, .addReg 0 0, .sub 0 0, .shr 0 0, .subn 0 0, .shl 0,
   .sneReg 0 0, .ldI 0, .jpV0 0, .rnd 0 0, .drw 0 0 0, .skp 0, .sknp 0, .ldFromDt 0, .ldKey 0,
   .ldToDt 0, .ldToSt 0, .addI 0, .ldFont 0, .ldBcd 0, .store 0, .load 0].map opcodeRow

/-- `w & mask = match` (R103). -/
def OpcodeRow.matchesWord (r : OpcodeRow) (w : Word) : Bool := w &&& r.mask == r.pattern

/-! ## The host's numbering of an instruction's bits -/

/-- The word that the host numbers: bit 0 is the least significant bit of the first (and only) word, and
every bit at or above `nbits` is 0. -/
def tableWord (nbits w : Nat) : Word := BitVec.ofNat 16 (w % 2 ^ nbits)

/-- What the decoder reads from an instruction whose bits are `w`, laid out as the core stores them, high
byte first (R90). -/
def decodeTableWord (nbits w : Nat) : Option Instr :=
  match decodeBytes [(tableWord nbits w).extractLsb' 8 8, (tableWord nbits w).extractLsb' 0 8] with
  | .ok (i, _) => some i
  | .error _ => none

end Sys2Proof
end

