-- ==== Sys2Proof/Config.lean ====
section
/-! DEFINITION. What the source fixes (00_scope.md R8), the types of the parameters it leaves open
(00_scope.md R9) and the one free value of the model, the byte each CXNN draws (42_register_alu.md R181). -/

namespace Sys2Proof

/-- `SHL_FLAG`: which bit of register X the instruction 8XYE copies into VF (42_register_alu.md R180,
90_conflicts.md C1, 92_eei_decisions.md D7). -/
inductive ShlFlag where
  | bit3
  | lowNibbleNonzero
  | bit7
  deriving DecidableEq, Repr

/-- `ALU_ALIAS_ORDER`: which of the two writes of 8XY4, 8XY5 and 8XY7 comes first
(42_register_alu.md R176, 92_eei_decisions.md D8). -/
inductive AluAliasOrder where
  | flagThenResult
  | resultThenFlag
  deriving DecidableEq, Repr

/-- The parameters that choose between readings of an instruction (00_scope.md R9). They belong to a
launch (70_reset_and_hazards.md R343) and never change while the core runs (assumption log 8). -/
structure Params where
  /-- `SPRITE_MSB_LEFT`: bit 7 of a sprite byte is column 0 (92_eei_decisions.md D6). -/
  spriteMsbLeft : Bool
  shlFlag : ShlFlag
  aluAliasOrder : AluAliasOrder
  deriving DecidableEq, Repr

/-- The free value of CXNN: the byte the environment supplies at the n-th draw, counted from 0
(42_register_alu.md R181, 92_eei_decisions.md D17). It has no body, so no proof can know it
(assumption log 9). -/
opaque Config.drawByte : Nat → Byte

/-- The last address of the memory image (00_scope.md R8, 20_memory.md R60). -/
abbrev Config.lastAddr : Nat := 0xFFF

/-- The number of bytes of the memory image (00_scope.md R8). -/
abbrev Config.memSize : Nat := 4096

/-- The reset value of pc, where "execution starts" (20_memory.md R62). -/
abbrev Config.entryPoint : Word := 0x200

/-- The first byte of the program region (20_memory.md R61). -/
abbrev Config.programBase : Nat := 0x200

/-- The size of the program region, 0x200 to 0xE9F (92_eei_decisions.md D21). -/
abbrev Config.maxProgram : Nat := 3232

/-- The first byte of the call stack (20_memory.md R61). -/
abbrev Config.stackBase : Nat := 0xEA0

/-- One past the last byte of the call stack (20_memory.md R61, 92_eei_decisions.md D11). -/
abbrev Config.stackEnd : Nat := 0xF00

/-- The base of the key window (20_memory.md R68). -/
abbrev Config.keyBase : Nat := 0x050

/-- The base of the framebuffer window (20_memory.md R68). -/
abbrev Config.fbBase : Nat := 0xF00

/-- The number of font bytes, 16 glyphs of 5 (00_scope.md R8). -/
abbrev Config.fontSize : Nat := 80

end Sys2Proof
end

