-- ==== Sys2Proof/Machine/Defaults.lean ====
section
/-! DEFINITION. The values that reset and unlisted memory take in the zero launch of 00_scope.md R15
(70_reset_and_hazards.md R343): the default font and the defaults of the three parameters. -/

namespace Sys2Proof.Machine

/-- The default `FONT`, glyph `d` at bytes `5d` to `5d + 4` (93_implementation_defined.md K1,
92_eei_decisions.md D5). PRESUMED: the spec takes it from general knowledge (assumption log 4, unsafe). -/
def defaultFont : List Byte :=
  [0xF0, 0x90, 0x90, 0x90, 0xF0] ++ [0x20, 0x60, 0x20, 0x20, 0x70] ++
  [0xF0, 0x10, 0xF0, 0x80, 0xF0] ++ [0xF0, 0x10, 0xF0, 0x10, 0xF0] ++
  [0x90, 0x90, 0xF0, 0x10, 0x10] ++ [0xF0, 0x80, 0xF0, 0x10, 0xF0] ++
  [0xF0, 0x80, 0xF0, 0x90, 0xF0] ++ [0xF0, 0x10, 0x20, 0x40, 0x40] ++
  [0xF0, 0x90, 0xF0, 0x90, 0xF0] ++ [0xF0, 0x90, 0xF0, 0x10, 0xF0] ++
  [0xF0, 0x90, 0xF0, 0x90, 0x90] ++ [0xE0, 0x90, 0xE0, 0x90, 0xE0] ++
  [0xF0, 0x80, 0x80, 0x80, 0xF0] ++ [0xE0, 0x90, 0x90, 0x90, 0xE0] ++
  [0xF0, 0x80, 0xF0, 0x80, 0xF0] ++ [0xF0, 0x80, 0xF0, 0x80, 0x80]

/-- What a byte of memory reads as when nothing has written it: the font at 0x000 to 0x04F, and 0x00
everywhere else. DESIGN CHOICE for `INIT_MEM` (assumption log 3, unsafe; 92_eei_decisions.md D3). -/
def resetByte (a : Nat) : Byte := if a < Config.fontSize then defaultFont.getD a 0 else 0

/-- `SPRITE_MSB_LEFT`, default true. PRESUMED (92_eei_decisions.md D6, K2; assumption log 5, unsafe). -/
def defaultSpriteMsbLeft : Bool := true

/-- `SHL_FLAG`, default `BIT3`. DESIGN CHOICE of the spec (92_eei_decisions.md D7; assumption log 6, unsafe). -/
def defaultShlFlag : ShlFlag := .bit3

/-- `ALU_ALIAS_ORDER`, default `FLAG_THEN_RESULT`. DESIGN CHOICE of the spec (92_eei_decisions.md D8;
assumption log 7, unsafe). -/
def defaultAluAliasOrder : AluAliasOrder := .flagThenResult

/-- The three parameters of the zero launch (00_scope.md R15). -/
def defaultParams : Params :=
  ⟨defaultSpriteMsbLeft, defaultShlFlag, defaultAluAliasOrder⟩

end Sys2Proof.Machine
end

