-- ==== Sys2Proof/Machine/State.lean ====
section
/-! DEFINITION. The state of the core (10_state.md), the faults it records (60_exceptions.md R301), the
reasons a step or a host transaction has no move, and the state after reset. -/

namespace Sys2Proof.Machine

/-- Memory: the cells that differ from what an unlisted address reads as (`resetByte`), addresses strictly
rising. `Memory.wf` says so. -/
abbrev Memory := List Host.Cell

/-- The fault kinds with their information (60_exceptions.md R301). They are recorded in `State.fault`. -/
inductive FaultKind where
  /-- code 1: instruction address, raw word (R302) -/
  | unknownInstruction (a w : Word)
  /-- code 2: the lowest address of the access above 0xFFF (R303) -/
  | memoryOutOfRange (addr : Nat)
  /-- code 3: instruction address, sp before the call (R304) -/
  | stackOverflow (a sp : Word)
  /-- code 4: instruction address, sp before the return (R305) -/
  | stackUnderflow (a sp : Word)
  /-- code 5: instruction address, the unreduced sum (R306) -/
  | addressOverflow (a : Word) (sum : Nat)
  /-- code 6: the bit index; raised by the bit storage only (R307) -/
  | bitIndexOutOfRange (i : Nat)
  /-- code 7: the value; raised by the bit storage only (R308) -/
  | invalidBitValue (v : Nat)
  deriving DecidableEq, Repr

/-- The fault record: "the kind, its information, and the step's instruction address a"
(60_exceptions.md R300, 10_state.md R35). -/
structure FaultRecord where
  kind : FaultKind
  addr : Word
  deriving DecidableEq, Repr

/-- Why a step stops the machine. -/
inductive Fault where
  /-- Raised by `step` alone, when a fault is already recorded: "`step()` on a core whose `fault` is not
  `none` has no move: the run has ended in that fault" (40_fetch_execute.md R120). Safe: the spec gives no
  effect (assumption log 10). -/
  | runEnded (record : FaultRecord)
  deriving DecidableEq, Repr

/-- Why something has no meaning. -/
inductive Refusal where
  /-- Raised by an arm of `exec` for an instruction that has no meaning yet; no arm raises it now. Safe. -/
  | notModelled (mnemonic : String)
  /-- Raised by `State.load` and `Launch.start` for a program of more than 3232 bytes: "refuse the launch"
  (92_eei_decisions.md D21). Safe: no claim is about such a launch (assumption log 15). -/
  | programTooLong (bytes : Nat)
  /-- Raised by `State.keyDown` and `State.keyUp` for a key index above 15: "such a transaction has no move"
  (92_eei_decisions.md D20). Unsafe if a host sends one: the spec accepts that (assumption log 15). -/
  | keyIndexOutOfRange (k : Nat)
  deriving DecidableEq, Repr

/-- The state of the core: the tuple `(mem, x, I, pc, sp, DT, ST, redraw, fault)` of 10_state.md, and two
fields of the model's own, `params` (assumption log 8) and `draws` (assumption log 9). -/
structure State where
  /-- the memory image, with the font, the key bits, the stack and the framebuffer in it (20_memory.md R60, R61) -/
  mem : Memory
  /-- `x[0]` to `x[15]` (10_state.md R20) -/
  regs : Vector Byte 16
  /-- `I` (10_state.md R26) -/
  iReg : Word
  /-- `pc` (10_state.md R24) -/
  pc : Word
  /-- `sp`, the next free stack slot (10_state.md R28) -/
  sp : Word
  /-- `DT` (10_state.md R29) -/
  dt : Byte
  /-- `ST` (10_state.md R30) -/
  st : Byte
  /-- `redraw` (10_state.md R33) -/
  redraw : Bool
  /-- `fault`, the first fault of the run (10_state.md R35) -/
  fault : Option FaultRecord
  /-- the launch's parameters (00_scope.md R9); no step changes them -/
  params : Params
  /-- how many bytes CXNN has drawn (42_register_alu.md R181) -/
  draws : Nat
  deriving DecidableEq, Repr

/-- The state right after reset, in the zero launch (00_scope.md R15) with no program: pc = 0x200,
sp = 0xEA0, redraw = 0 and fault = none are the spec's (10_state.md R40); the registers, I, DT and ST are
OPEN in the spec and 0 here (DESIGN CHOICE, assumption log 1 and 2, unsafe). `Launch.start` gives the
state after any other launch. -/
def State.reset : State where
  mem := []
  regs := Vector.replicate 16 0
  iReg := 0
  pc := Config.entryPoint
  sp := 0xEA0
  dt := 0
  st := 0
  redraw := false
  fault := none
  params := defaultParams
  draws := 0

end Sys2Proof.Machine
end

