-- ==== Sys2Proof/Machine/Ops.lean ====
section
/-! DEFINITION. The named operations over registers, memory, bit windows and the program counter, the one
operation that raises a fault, and the fetch. -/

namespace Sys2Proof.Machine

/-! ## Registers -/

/-- Read `x[r]` (10_state.md R20). -/
def State.reg (s : State) (r : Reg) : Byte := s.regs[r.val]

/-- `x[r] <- v`; "the value stored is v mod 256" is the type's own (10_state.md R21). -/
def State.setReg (s : State) (r : Reg) (v : Byte) : State := { s with regs := s.regs.set r.val v }

/-- The register that is also the flag register (10_state.md R22). -/
def vf : Reg := 0xF

/-- `pc <- v` (10_state.md R24). -/
def State.setPc (s : State) (v : Word) : State := { s with pc := v }

/-- `I <- v` (10_state.md R26). -/
def State.setI (s : State) (v : Word) : State := { s with iReg := v }

/-- `sp <- v` (10_state.md R28). -/
def State.setSp (s : State) (v : Word) : State := { s with sp := v }

/-- `DT <- v` (10_state.md R29). -/
def State.setDt (s : State) (v : Byte) : State := { s with dt := v }

/-- `ST <- v` (10_state.md R30). -/
def State.setSt (s : State) (v : Byte) : State := { s with st := v }

/-- `redraw <- b` (10_state.md R33). -/
def State.setRedraw (s : State) (b : Bool) : State := { s with redraw := b }

/-- Replace the memory image. -/
def State.setMem (s : State) (m : Memory) : State := { s with mem := m }

/-- Count one more draw of a random byte (42_register_alu.md R181). -/
def State.countDraw (s : State) : State := { s with draws := s.draws + 1 }

/-! ## Bytes of memory -/

/-- The byte at address `a`: the listed one, or what an unlisted address reads as. -/
def Memory.read : Memory → Nat → Byte
  | [], a => resetByte a
  | (k, c) :: rest, a => if k = a then c else Memory.read rest a

/-- Put a cell in front of cells at higher addresses, leaving it out where it holds what an unlisted
address reads as. -/
def Memory.cons (a : Nat) (b : Byte) (rest : Memory) : Memory :=
  if b = resetByte a then rest else (a, b) :: rest

/-- Write one byte, keeping the canonical form. -/
def Memory.write : Memory → Nat → Byte → Memory
  | [], a, b => Memory.cons a b []
  | (k, c) :: rest, a, b =>
    if a < k then Memory.cons a b ((k, c) :: rest)
    else if a = k then Memory.cons a b rest
    else (k, c) :: Memory.write rest a b

/-- The canonical form: addresses strictly rising and inside the image, and no cell that holds what an
unlisted address reads as. -/
def Memory.wf : Memory → Bool
  | [] => true
  | (k, c) :: rest =>
    decide (k ≤ Config.lastAddr) && decide (c ≠ resetByte k) && rest.all (fun e => decide (k < e.1)) &&
      Memory.wf rest

/-! ## Byte sequences (20_memory.md R63, R64) -/

/-- The `n` bytes from `a`, in address order. -/
def Memory.readBytes (m : Memory) (a : Nat) : Nat → List Byte
  | 0 => []
  | n + 1 => m.read a :: Memory.readBytes m (a + 1) n

/-- Write bytes from `a` on, in address order. -/
def Memory.writeBytes (m : Memory) (a : Nat) : List Byte → Memory
  | [] => m
  | b :: bs => Memory.writeBytes (m.write a b) (a + 1) bs

/-- The number that bytes spell, most significant first: `a ++ b ++ ...` (00_scope.md R11, 20_memory.md R66). -/
def beNat (bs : List Byte) : Nat := bs.foldl (fun acc b => acc * 256 + b.toNat) 0

/-- `v` as `n` bytes, most significant first: byte `j` is `(v >> (8 * (n - 1 - j))) & 0xFF` (20_memory.md R64). -/
def beBytes : Nat → Nat → List Byte
  | 0, _ => []
  | n + 1, v => BitVec.ofNat 8 (v >>> (8 * n)) :: beBytes n v

/-- The bound check of every access: the fault of an access of `n` bytes at `a` that reaches past 0xFFF,
with its lowest offending address (20_memory.md R63, R65, 60_exceptions.md R303). -/
def rangeFault (a n : Nat) : Option FaultKind :=
  if n = 0 then none
  else if a + n - 1 > Config.lastAddr then
    some (.memoryOutOfRange (if a > Config.lastAddr then a else 0x1000))
  else none

/-- Read `n` bytes, or the fault (20_memory.md R63). -/
def loadBytes (m : Memory) (a n : Nat) : Except FaultKind (List Byte) :=
  match rangeFault a n with
  | some f => .error f
  | none => .ok (m.readBytes a n)

/-- Write bytes, or the fault with nothing written (20_memory.md R64, 92_eei_decisions.md D13). -/
def storeBytes (m : Memory) (a : Nat) (bs : List Byte) : Except FaultKind Memory :=
  match rangeFault a bs.length with
  | some f => .error f
  | none => .ok (m.writeBytes a bs)

/-- `MemRead(addr, n)` (20_memory.md R63). -/
def memRead (m : Memory) (a n : Nat) : Except FaultKind Nat :=
  match loadBytes m a n with
  | .error f => .error f
  | .ok bs => .ok (beNat bs)

/-- `MemWrite(addr, n, v)` (20_memory.md R64). -/
def memWrite (m : Memory) (a n v : Nat) : Except FaultKind Memory := storeBytes m a (beBytes n v)

/-! ## Bit windows (20_memory.md R67 to R70) -/

/-- A byte with its bit `k` set to `b`: `(v & (0xFF ^ (1 << k))) | (b << k)` (20_memory.md R67). -/
def setBitOf (v : Byte) (k : Nat) (b : Bool) : Byte :=
  (v &&& (0xFF ^^^ ((1 : Byte) <<< k))) ||| ((if b then (1 : Byte) else 0) <<< k)

/-- Bit `i` of the window at byte `base`: bit `i mod 8` of byte `base + i // 8`, bit 0 the least
significant (20_memory.md R67). -/
def Memory.bit (m : Memory) (base i : Nat) : Bool := (m.read (base + i / 8)).getLsbD (i % 8)

/-- Write bit `i` of the window at byte `base` (20_memory.md R67). -/
def Memory.setBit (m : Memory) (base i : Nat) (b : Bool) : Memory :=
  m.write (base + i / 8) (setBitOf (m.read (base + i / 8)) (i % 8) b)

/-- `BitRead(base, i)` of the bit storage, with its bound (20_memory.md R67, 60_exceptions.md R307; assumption
log 19). -/
def bitRead (m : Memory) (base i : Nat) : Except FaultKind Bool :=
  if base + i / 8 > Config.lastAddr then .error (.bitIndexOutOfRange i) else .ok (m.bit base i)

/-- `BitWrite(base, i, b)` of the bit storage, with its checks in the rule's order (20_memory.md R67,
60_exceptions.md R307, R308). -/
def bitWrite (m : Memory) (base i v : Nat) : Except FaultKind Memory :=
  if v > 1 then .error (.invalidBitValue v)
  else if base + i / 8 > Config.lastAddr then .error (.bitIndexOutOfRange i)
  else .ok (m.setBit base i (v == 1))

/-- `FbRead(px, py)`: bit `py * 64 + px` of the framebuffer window (20_memory.md R69). -/
def Memory.pixel (m : Memory) (px py : Nat) : Bool := m.bit Config.fbBase (py * 64 + px)

/-- `FbWrite(px, py, b)` (20_memory.md R69). -/
def Memory.setPixel (m : Memory) (px py : Nat) (b : Bool) : Memory :=
  m.setBit Config.fbBase (py * 64 + px) b

/-- `KeyRead(k)`: bit `k` of the key window; `k` from 16 to 255 reads the reserved bytes 0x052 to 0x06F
(20_memory.md R70, 92_eei_decisions.md D25). -/
def Memory.key (m : Memory) (k : Nat) : Bool := m.bit Config.keyBase k

/-! ## The program counter -/

/-- `pc <- pc + 2`: the advance after the fetch (40_fetch_execute.md R122), and a skip
(41_control_flow.md R148). -/
def State.advance (s : State) : State := s.setPc (s.pc + 2)

/-- `a`, the address of the instruction being executed: during execution "pc already holds a + 2"
(00_scope.md R14). DEDUCED as pc - 2 (assumption log 11, safe). -/
def State.instrAddr (s : State) : Word := s.pc - 2

/-- A skip: 2 more is added to pc when the condition holds (41_control_flow.md R148). -/
def State.skipIf (s : State) (c : Bool) : State := if c then s.advance else s

/-! ## Raising a fault (60_exceptions.md R300) -/

/-- `raise F(info)` for the instruction at `a`: the fault is recorded and nothing else changes; pc is not
redirected and no handler runs (60_exceptions.md R300, R311). -/
def State.raiseAt (s : State) (a : Word) (k : FaultKind) : State := { s with fault := some ⟨k, a⟩ }

/-- `raise F(info)` in the execute phase. -/
def State.raise (s : State) (k : FaultKind) : State := s.raiseAt s.instrAddr k

/-- End an instruction with the fault of a failed access, or go on with what the access gave. -/
def State.orRaise {α : Type} (s : State) (r : Except FaultKind α) (next : α → State) :
    Host.Outcome State Fault Refusal :=
  match r with
  | .error k => .next (s.raise k)
  | .ok v => .next (next v)

/-! ## Fetch (40_fetch_execute.md R121) -/

/-- The word at pc, big-endian (30_encoding.md R90), or the fault of a fetch that reaches past 0xFFF. -/
def State.fetch (s : State) : Except FaultKind Word :=
  match memRead s.mem s.pc.toNat 2 with
  | .error k => .error k
  | .ok n => .ok (BitVec.ofNat 16 n)

end Sys2Proof.Machine
end

