-- ==== Sys2Proof/Machine/Operands.lean ====
section
/-! DEFINITION. The operand forms (30_encoding.md R93): the 12-bit address, the registers `x[0..X]`, the bytes
at I, the stack slot, the sprite's bits, the font glyph and the decimal digits. -/

namespace Sys2Proof.Machine

/-- `NNN` zero-extended to the 16 bits of pc or I (30_encoding.md R91). -/
def addrOf (nnn : Addr12) : Word := nnn.setWidth 16

/-- A register value zero-extended to 16 bits (30_encoding.md R91). -/
def wordOfByte (b : Byte) : Word := b.setWidth 16

/-- The 16 register indices in order. -/
def allRegs : List Reg := [0, 1, 2, 3, 4, 5, 6, 7, 8, 9, 10, 11, 12, 13, 14, 15]

/-- The register list of FX55 and FX65: 0 to X, X included (46_index_memory.md R264, R265). -/
def regsUpTo (x : Reg) : List Reg := allRegs.filter fun r => decide (r ≤ x)

/-- The values of `x[0]` to `x[X]`, in order. -/
def State.regValues (s : State) (x : Reg) : List Byte := (regsUpTo x).map s.reg

/-- Write consecutive registers from a list of values (46_index_memory.md R265). -/
def State.setRegs (s : State) : List Reg → List Byte → State
  | r :: rs, b :: bs => (s.setReg r b).setRegs rs bs
  | _, _ => s

/-- I as an address. It is never reduced modulo 0x1000 (10_state.md R26). -/
def State.iAddr (s : State) : Nat := s.iReg.toNat

/-- The address of the font glyph for a register value: `x[X] * 5`, not reduced (46_index_memory.md R262). -/
def glyphAddr (v : Byte) : Word := wordOfByte v * 5

/-- The decimal digits of a value: hundreds, tens, units (46_index_memory.md R263). -/
def bcdDigits (v : Byte) : List Byte :=
  [BitVec.ofNat 8 (v.toNat / 100), BitVec.ofNat 8 (v.toNat / 10 % 10), BitVec.ofNat 8 (v.toNat % 10)]

/-- Column `c` (0 to 7) of a sprite byte: bit `7 - c` where `SPRITE_MSB_LEFT`, else bit `c`
(43_display.md R212, 92_eei_decisions.md D6). -/
def spriteBit (msbLeft : Bool) (row : Byte) (c : Nat) : Bool :=
  if msbLeft then row.getLsbD (7 - c) else row.getLsbD c

/-- The 16 key indices in order. -/
def allKeys : List Nat := [0, 1, 2, 3, 4, 5, 6, 7, 8, 9, 10, 11, 12, 13, 14, 15]

/-- `min { k in 0 .. 15 : KeyRead(k) = 1 }`, none where no key is pressed (44_keys.md R232). -/
def Memory.lowestKey (m : Memory) : Option Nat := allKeys.find? m.key

end Sys2Proof.Machine
end

