-- ==== Sys2Proof/Machine/Flags.lean ====
section
/-! DEFINITION. The values VF takes as a flag (42_register_alu.md R183, 43_display.md R212) and the order in
which a flag and a result are written. -/

namespace Sys2Proof.Machine

/-- A flag value in VF: 1 or 0. -/
def flagByte (b : Bool) : Byte := if b then 1 else 0

/-- 8XY4: "1 if sum > 255" (42_register_alu.md R176). -/
def carryFlag (vx vy : Byte) : Bool := decide (vx.toNat + vy.toNat > 255)

/-- 8XY5 and 8XY7: strictly greater, no borrow (42_register_alu.md R177, R179, 90_conflicts.md C15). -/
def greaterFlag (a b : Byte) : Bool := decide (a.toNat > b.toNat)

/-- 8XY6: bit 0 of register X (42_register_alu.md R178). -/
def shrFlag (vx : Byte) : Bool := vx.getLsbD 0

/-- 8XYE: `SHL_FLAG` of register X, by the launch's parameter (42_register_alu.md R180). -/
def shlFlagOf (p : ShlFlag) (vx : Byte) : Bool :=
  match p with
  | .bit3 => vx.getLsbD 3
  | .lowNibbleNonzero => decide (vx &&& 0x0F ≠ 0)
  | .bit7 => vx.getLsbD 7

/-- Write a result and a flag, both computed beforehand, in the order of `ALU_ALIAS_ORDER`
(42_register_alu.md R176, R177, R179, 92_eei_decisions.md D8). -/
def State.writeFlagged (s : State) (dst : Reg) (result : Byte) (flag : Bool) : State :=
  match s.params.aluAliasOrder with
  | .flagThenResult => (s.setReg vf (flagByte flag)).setReg dst result
  | .resultThenFlag => (s.setReg dst result).setReg vf (flagByte flag)

end Sys2Proof.Machine
end

