-- ==== Sys2Proof/Machine/Alu.lean ====
section
/-! DEFINITION. Register loads and the ALU (42_register_alu.md). All arithmetic is unsigned and modulo 256
(R182), which is what the byte type computes. -/

namespace Sys2Proof.Machine

/-- 6XNN, `LD VX, NN` (42_register_alu.md R170). -/
def execLdImm (x : Reg) (nn : Byte) (s : State) : Host.Outcome State Fault Refusal :=
  .next (s.setReg x nn)

/-- 7XNN, `ADD VX, NN`: "no carry flag affected" (42_register_alu.md R171). -/
def execAddImm (x : Reg) (nn : Byte) (s : State) : Host.Outcome State Fault Refusal :=
  .next (s.setReg x (s.reg x + nn))

/-- 8XY0, `LD VX, VY` (42_register_alu.md R172). -/
def execLdReg (x y : Reg) (s : State) : Host.Outcome State Fault Refusal :=
  .next (s.setReg x (s.reg y))

/-- 8XY1, `OR VX, VY`; VF is no flag here (42_register_alu.md R173, 92_eei_decisions.md D26). -/
def execOr (x y : Reg) (s : State) : Host.Outcome State Fault Refusal :=
  .next (s.setReg x (s.reg x ||| s.reg y))

/-- 8XY2, `AND VX, VY` (42_register_alu.md R174, D26). -/
def execAnd (x y : Reg) (s : State) : Host.Outcome State Fault Refusal :=
  .next (s.setReg x (s.reg x &&& s.reg y))

/-- 8XY3, `XOR VX, VY` (42_register_alu.md R175, D26). -/
def execXor (x y : Reg) (s : State) : Host.Outcome State Fault Refusal :=
  .next (s.setReg x (s.reg x ^^^ s.reg y))

/-- 8XY4, `ADD VX, VY` with carry out (42_register_alu.md R176). -/
def execAddReg (x y : Reg) (s : State) : Host.Outcome State Fault Refusal :=
  .next (s.writeFlagged x (s.reg x + s.reg y) (carryFlag (s.reg x) (s.reg y)))

/-- 8XY5, `SUB VX, VY` (42_register_alu.md R177). -/
def execSub (x y : Reg) (s : State) : Host.Outcome State Fault Refusal :=
  .next (s.writeFlagged x (s.reg x - s.reg y) (greaterFlag (s.reg x) (s.reg y)))

/-- The literal order of 8XY6 and 8XYE: the flag is written first, "then" register `r` is read, shifted and
written (42_register_alu.md R178, R180, 92_eei_decisions.md D9). -/
def State.flagThenShift (s : State) (flag : Bool) (r : Reg) (shift : Byte → Byte) : State :=
  (s.setReg vf (flagByte flag)).setReg r (shift ((s.setReg vf (flagByte flag)).reg r))

/-- 8XY6, `SHR VX, VY`: the flag is bit 0 of X, the shift is of Y (42_register_alu.md R178, 90_conflicts.md C7). -/
def execShr (x y : Reg) (s : State) : Host.Outcome State Fault Refusal :=
  .next (s.flagThenShift (shrFlag (s.reg x)) y (fun v => v >>> 1))

/-- 8XY7, `SUBN VX, VY`: the result goes into Y (42_register_alu.md R179). -/
def execSubn (x y : Reg) (s : State) : Host.Outcome State Fault Refusal :=
  .next (s.writeFlagged y (s.reg y - s.reg x) (greaterFlag (s.reg y) (s.reg x)))

/-- 8XYE, `SHL VX, VY`: register Y is not used (42_register_alu.md R180). -/
def execShl (x : Reg) (s : State) : Host.Outcome State Fault Refusal :=
  .next (s.flagThenShift (shlFlagOf s.params.shlFlag (s.reg x)) x (fun v => v <<< 1))

/-- `x[X] <- r & NN` for a drawn byte `r`, the draw counted (42_register_alu.md R181). -/
def State.writeRandom (s : State) (r : Byte) (x : Reg) (nn : Byte) : State :=
  (s.setReg x (r &&& nn)).countDraw

/-- CXNN, `RND VX, NN`: `r` is the free value of this draw, "a fresh value 0..255 at every execution"
(42_register_alu.md R181, 92_eei_decisions.md D17; assumption log 9). -/
def execRnd (x : Reg) (nn : Byte) (s : State) : Host.Outcome State Fault Refusal :=
  .next (s.writeRandom (Config.drawByte s.draws) x nn)

end Sys2Proof.Machine
end

