-- ==== Sys2Proof/Machine/ControlFlow.lean ====
section
/-! DEFINITION. Control flow (41_control_flow.md): jumps, call and return, the four register and immediate
skips. When a meaning starts, pc already holds a + 2 (00_scope.md R14). -/

namespace Sys2Proof.Machine

/-- 1NNN, `JP NNN`: `pc <- NNN` (41_control_flow.md R140). -/
def execJp (nnn : Addr12) (s : State) : Host.Outcome State Fault Refusal :=
  .next (s.setPc (addrOf nnn))

/-- 2NNN, `CALL NNN`: the bound of D11, then push pc, advance sp, jump (41_control_flow.md R141). -/
def execCall (nnn : Addr12) (s : State) : Host.Outcome State Fault Refusal :=
  if s.sp.toNat + 2 > Config.stackEnd then .next (s.raise (.stackOverflow s.instrAddr s.sp))
  else s.orRaise (memWrite s.mem s.sp.toNat 2 s.pc.toNat) fun m =>
    ((s.setMem m).setSp (s.sp + 2)).setPc (addrOf nnn)

/-- 00EE, `RET`: the bound of D11, then pop pc (41_control_flow.md R142). The fault of `MemRead` needs an
sp above 0x1000, which no run reaches (assumption log 12). -/
def execRet (s : State) : Host.Outcome State Fault Refusal :=
  if s.sp.toNat < Config.stackBase + 2 then .next (s.raise (.stackUnderflow s.instrAddr s.sp))
  else s.orRaise (memRead s.mem (s.sp - 2).toNat 2) fun v =>
    (s.setSp (s.sp - 2)).setPc (BitVec.ofNat 16 v)

/-- BNNN, `JP V0, NNN`: `pc <- NNN + x[0]`, not reduced (41_control_flow.md R143). -/
def execJpV0 (nnn : Addr12) (s : State) : Host.Outcome State Fault Refusal :=
  .next (s.setPc (addrOf nnn + wordOfByte (s.reg 0)))

/-- 3XNN, `SE VX, NN` (41_control_flow.md R144). -/
def execSeImm (x : Reg) (nn : Byte) (s : State) : Host.Outcome State Fault Refusal :=
  .next (s.skipIf (decide (s.reg x = nn)))

/-- 4XNN, `SNE VX, NN` (41_control_flow.md R145). -/
def execSneImm (x : Reg) (nn : Byte) (s : State) : Host.Outcome State Fault Refusal :=
  .next (s.skipIf (decide (s.reg x ≠ nn)))

/-- 5XY0, `SE VX, VY` (41_control_flow.md R146). -/
def execSeReg (x y : Reg) (s : State) : Host.Outcome State Fault Refusal :=
  .next (s.skipIf (decide (s.reg x = s.reg y)))

/-- 9XY0, `SNE VX, VY` (41_control_flow.md R147). -/
def execSneReg (x y : Reg) (s : State) : Host.Outcome State Fault Refusal :=
  .next (s.skipIf (decide (s.reg x ≠ s.reg y)))

end Sys2Proof.Machine
end

