-- ==== Sys2Proof/Machine/Display.lean ====
section
/-! DEFINITION. The display instructions (43_display.md). -/

namespace Sys2Proof.Machine

/-- `mem[0xF00 .. 0xFFF] <- 0` (43_display.md R211): no cell of the framebuffer stays listed, and an unlisted one reads
as `resetByte`, which is 0 there (assumption log 20). -/
def Memory.clearFramebuffer (m : Memory) : Memory :=
  m.filter fun e => decide (e.1 < Config.fbBase ∨ Config.lastAddr < e.1)

/-- 00E0, `CLS`: clear every framebuffer bit and set `redraw`, with no condition (43_display.md R211). -/
def execCls (s : State) : Host.Outcome State Fault Refusal :=
  .next ((s.setMem s.mem.clearFramebuffer).setRedraw true)

/-- What DXYN carries from pixel to pixel: the memory, `collision` and `changed` (43_display.md R212). -/
structure Drawing where
  mem : Memory
  collision : Bool
  changed : Bool
  deriving DecidableEq, Repr

/-- One pixel of DXYN: `new = old ^ b`; collision where a set pixel is unset; changed where it differs
(43_display.md R212). -/
def Drawing.pixel (d : Drawing) (px py : Nat) (b : Bool) : Drawing where
  mem := d.mem.setPixel px py (d.mem.pixel px py ^^ b)
  collision := d.collision || (d.mem.pixel px py && !(d.mem.pixel px py ^^ b))
  changed := d.changed || ((d.mem.pixel px py ^^ b) != d.mem.pixel px py)

/-- The column numbers of a sprite row. -/
def columns : List Nat := [0, 1, 2, 3, 4, 5, 6, 7]

/-- One row of DXYN: "compute target pixel at ((reg[X]+col) mod 64, (reg[Y]+row) mod 32) (wrap-around, not
clip)" (43_display.md R212, 90_conflicts.md C10). -/
def Drawing.row (d : Drawing) (msbLeft : Bool) (cx y : Nat) (bits : Byte) : Drawing :=
  columns.foldl (fun d c => d.pixel ((cx + c) % 64) (y % 32) (spriteBit msbLeft bits c)) d

/-- The rows of DXYN, the first at coordinate `y`. -/
def Drawing.rows (d : Drawing) (msbLeft : Bool) (cx : Nat) : Nat → List Byte → Drawing
  | _, [] => d
  | y, bits :: rest => (d.row msbLeft cx y bits).rows msbLeft cx (y + 1) rest

/-- What DXYN does with the sprite rows it has read: draw them at the coordinates read before VF is written,
then VF <- collision, then `redraw` where a pixel changed (43_display.md R212, 92_eei_decisions.md D16). -/
def State.drawSprite (s : State) (x y : Reg) (sprite : List Byte) : State :=
  let d := Drawing.rows ⟨s.mem, false, false⟩ s.params.spriteMsbLeft (s.reg x).toNat (s.reg y).toNat sprite
  ((s.setMem d.mem).setReg vf (flagByte d.collision)).setRedraw (s.redraw || d.changed)

/-- DXYN, `DRW VX, VY, N`: all rows are read first, and a sprite that runs past 0xFFF raises with nothing
written; N = 0 reads nothing (43_display.md R212, 92_eei_decisions.md D13, D16). -/
def execDrw (x y : Reg) (n : Nat) (s : State) : Host.Outcome State Fault Refusal :=
  s.orRaise (loadBytes s.mem s.iAddr n) (s.drawSprite x y)

end Sys2Proof.Machine
end

