-- ==== Sys2Proof/Machine/IndexMemory.lean ====
section
/-! DEFINITION. The address register and the memory transfers through it (46_index_memory.md). I is unchanged
by the three transfers (92_eei_decisions.md D26). -/

namespace Sys2Proof.Machine

/-- ANNN, `LD I, NNN` (46_index_memory.md R260). -/
def execLdI (nnn : Addr12) (s : State) : Host.Outcome State Fault Refusal :=
  .next (s.setI (addrOf nnn))

/-- FX1E, `ADD I, VX`: a sum above 0xFFF raises and leaves I; VF is never written (46_index_memory.md R261,
92_eei_decisions.md D12). -/
def execAddI (x : Reg) (s : State) : Host.Outcome State Fault Refusal :=
  if s.iAddr + (s.reg x).toNat > Config.lastAddr then
    .next (s.raise (.addressOverflow s.instrAddr (s.iAddr + (s.reg x).toNat)))
  else .next (s.setI (BitVec.ofNat 16 (s.iAddr + (s.reg x).toNat)))

/-- FX29, `LD F, VX` (46_index_memory.md R262). -/
def execLdFont (x : Reg) (s : State) : Host.Outcome State Fault Refusal :=
  .next (s.setI (glyphAddr (s.reg x)))

/-- FX33, `LD B, VX` (46_index_memory.md R263). -/
def execLdBcd (x : Reg) (s : State) : Host.Outcome State Fault Refusal :=
  s.orRaise (storeBytes s.mem s.iAddr (bcdDigits (s.reg x))) s.setMem

/-- FX55, `LD [I], VX` (46_index_memory.md R264). -/
def execStore (x : Reg) (s : State) : Host.Outcome State Fault Refusal :=
  s.orRaise (storeBytes s.mem s.iAddr (s.regValues x)) s.setMem

/-- FX65, `LD VX, [I]` (46_index_memory.md R265). -/
def execLoad (x : Reg) (s : State) : Host.Outcome State Fault Refusal :=
  s.orRaise (loadBytes s.mem s.iAddr (x.val + 1)) (s.setRegs (regsUpTo x))

end Sys2Proof.Machine
end

