-- ==== Sys2Proof/Machine/Keys.lean ====
section
/-! DEFINITION. The key instructions (44_keys.md). -/

namespace Sys2Proof.Machine

/-- EX9E, `SKP VX`: the key index is the full register value (44_keys.md R230, 92_eei_decisions.md D25). -/
def execSkp (x : Reg) (s : State) : Host.Outcome State Fault Refusal :=
  .next (s.skipIf (s.mem.key (s.reg x).toNat))

/-- EXA1, `SKNP VX` (44_keys.md R231). -/
def execSknp (x : Reg) (s : State) : Host.Outcome State Fault Refusal :=
  .next (s.skipIf (!s.mem.key (s.reg x).toNat))

/-- FX0A, `LD VX, K`: with no key pressed pc goes back to this instruction; else x[X] takes the lowest
pressed key (44_keys.md R232, 90_conflicts.md C4). -/
def execLdKey (x : Reg) (s : State) : Host.Outcome State Fault Refusal :=
  match s.mem.lowestKey with
  | none => .next (s.setPc (s.pc - 2))
  | some k => .next (s.setReg x (BitVec.ofNat 8 k))

end Sys2Proof.Machine
end

