-- ==== Sys2Proof/Machine/Timers.lean ====
section
/-! DEFINITION. The timer instructions (45_timers.md). The tick engine is in Machine/Transactions.lean. -/

namespace Sys2Proof.Machine

/-- FX07, `LD VX, DT` (45_timers.md R250). -/
def execLdFromDt (x : Reg) (s : State) : Host.Outcome State Fault Refusal :=
  .next (s.setReg x s.dt)

/-- FX15, `LD DT, VX` (45_timers.md R251). -/
def execLdToDt (x : Reg) (s : State) : Host.Outcome State Fault Refusal :=
  .next (s.setDt (s.reg x))

/-- FX18, `LD ST, VX`: it never emits the tone, which only a tick does (45_timers.md R252, 90_conflicts.md C5). -/
def execLdToSt (x : Reg) (s : State) : Host.Outcome State Fault Refusal :=
  .next (s.setSt (s.reg x))

end Sys2Proof.Machine
end

