-- ==== Sys2Proof/Machine/Step.lean ====
section
/-! DEFINITION. One `step()` of the core (40_fetch_execute.md R129), and the placing of one instruction where
the next step fetches. -/

namespace Sys2Proof.Machine

/-- `step()`, as 40_fetch_execute.md R129 writes it: no move once a fault is recorded (R120; assumption log 10);
a fetch fault leaves pc at `a` (R121); after the fetch pc holds `a + 2` (R122); an unknown word raises
`UnknownInstruction(a, w)` (R124); any other word runs its instruction (R125). A step that raises gives the
state with the fault recorded (60_exceptions.md R300). -/
def step (s : State) : Host.Outcome State Fault Refusal :=
  match s.fault with
  | some record => .fault (.runEnded record)
  | none =>
    match s.fetch with
    | .error k => .next (s.raiseAt s.pc k)
    | .ok w =>
      match decode w with
      | .error _ => .next (s.advance.raiseAt s.pc (.unknownInstruction s.pc w))
      | .ok i => exec i s.advance

/-- `s` with the instruction whose bits are `w` (numbered as the host numbers them) stored at pc, high byte
first (30_encoding.md R90); where pc has no two bytes of memory to fetch from, nothing is stored
(assumption log 13). -/
def State.withFetchWord (s : State) (nbits w : Nat) : State :=
  match storeBytes s.mem s.pc.toNat
      [(tableWord nbits w).extractLsb' 8 8, (tableWord nbits w).extractLsb' 0 8] with
  | .error _ => s
  | .ok m => s.setMem m

end Sys2Proof.Machine
end

