-- ==== Sys2Proof/Machine/Launch.lean ====
section
/-! DEFINITION. Launching the core (70_reset_and_hazards.md R340): the loader and the state after reset for
every value of what the source leaves open (00_scope.md R9). -/

namespace Sys2Proof.Machine

/-- A launch: "the tuple of every value rule R340 reads" (70_reset_and_hazards.md R343). The functions are
inputs of the launch, not state. -/
structure Launch where
  /-- `PROGRAM`, at most 3232 bytes (92_eei_decisions.md D21) -/
  program : List Byte
  /-- `INIT_MEM` (D3) -/
  initMem : Nat → Byte
  /-- `FONT`, read at 0 to 79 (D5) -/
  font : Nat → Byte
  /-- `INIT_V` (D1) -/
  initV : Vector Byte 16
  /-- `INIT_I` (D2) -/
  initI : Word
  /-- `INIT_DT` (D2) -/
  initDt : Byte
  /-- `INIT_ST` (D2) -/
  initSt : Byte
  /-- `SPRITE_MSB_LEFT`, `SHL_FLAG`, `ALU_ALIAS_ORDER` (D6, D7, D8) -/
  params : Params

/-- The zero launch of a program: every OPEN value 0, the default font and the default parameters
(00_scope.md R15). -/
def zeroLaunch (program : List Byte) : Launch where
  program := program
  initMem := fun _ => 0
  font := resetByte
  initV := Vector.replicate 16 0
  initI := 0
  initDt := 0
  initSt := 0
  params := defaultParams

/-- What memory holds before the program is loaded: `FONT` at 0x000 to 0x04F, `INIT_MEM` elsewhere
(70_reset_and_hazards.md R340). -/
def Launch.byte (l : Launch) (a : Nat) : Byte := if a < Config.fontSize then l.font a else l.initMem a

/-- The memory image that holds `f a` at every address `a` of `as`, rising addresses. -/
def Memory.ofBytes (f : Nat → Byte) : List Nat → Memory
  | [] => []
  | a :: as => Memory.cons a (f a) (Memory.ofBytes f as)

/-- The state of R340 before the program is copied. -/
def Launch.bare (l : Launch) : State where
  mem := Memory.ofBytes l.byte (List.range Config.memSize)
  regs := l.initV
  iReg := l.initI
  pc := Config.entryPoint
  sp := 0xEA0
  dt := l.initDt
  st := l.initSt
  redraw := false
  fault := none
  params := l.params
  draws := 0

/-- `load(bytes)`: copy the program "verbatim into the program-code region starting at 0x200"; a program of
more than 3232 bytes is refused (60_exceptions.md R322, 92_eei_decisions.md D21). The host runs it before the
first step only, so no `Transaction` of a run is a load (assumption log 14). -/
def State.load (s : State) (bytes : List Byte) : Host.Outcome State Fault Refusal :=
  if bytes.length > Config.maxProgram then .refused (.programTooLong bytes.length)
  else .next (s.setMem (s.mem.writeBytes Config.programBase bytes))

/-- `reset(program)`: the state a launch starts in (70_reset_and_hazards.md R340). -/
def Launch.start (l : Launch) : Host.Outcome State Fault Refusal := l.bare.load l.program

end Sys2Proof.Machine
end

