-- ==== Sys2Proof/Machine/Transactions.lean ====
section
/-! DEFINITION. The host's transactions (10_state.md R39, 60_exceptions.md R316 to R323), the tick engine
among them; a run as a sequence of them; and the end of a run (60_exceptions.md R326). -/

namespace Sys2Proof.Machine

/-! ## The tick engine (60_exceptions.md R316, R317) -/

/-- One count down: "decremented by exactly 1 ... while greater than zero" (60_exceptions.md R316). -/
def countDown (t : Byte) : Byte := if t = 0 then 0 else t - 1

/-- `tick()`: both timers count down, independently (60_exceptions.md R316). -/
def State.tick (s : State) : State := (s.setDt (countDown s.dt)).setSt (countDown s.st)

/-- `tick()` emits `Tone` exactly when it takes ST from 1 to 0 (60_exceptions.md R317, 92_eei_decisions.md D18). -/
def State.tickTone (s : State) : Bool := decide (s.st = 1)

/-! ## Keys (60_exceptions.md R320) -/

/-- Set or clear key `k`'s bit; an index above 15 has no move (92_eei_decisions.md D20). -/
def State.keyTo (s : State) (k : Nat) (pressed : Bool) : Host.Outcome State Fault Refusal :=
  if k ≤ 15 then .next (s.setMem (s.mem.setBit Config.keyBase k pressed))
  else .refused (.keyIndexOutOfRange k)

/-- `key_down(k)`. -/
def State.keyDown (s : State) (k : Nat) : Host.Outcome State Fault Refusal := s.keyTo k true

/-- `key_up(k)`. -/
def State.keyUp (s : State) (k : Nat) : Host.Outcome State Fault Refusal := s.keyTo k false

/-- `keys()`: the 16-entry pressed/released vector. -/
def State.keys (s : State) : List Bool := allKeys.map s.mem.key

/-! ## Display (60_exceptions.md R319) -/

/-- `framebuffer()`: the 2048 pixel bits, index y·64 + x. -/
def State.framebuffer (s : State) : List Bool := (List.range 2048).map (s.mem.bit Config.fbBase)

/-- `ack_redraw()`: `redraw <- 0` and nothing else (92_eei_decisions.md D4). -/
def State.ackRedraw (s : State) : State := s.setRedraw false

/-! ## Debug (60_exceptions.md R323) -/

/-- What `read_state()` copies: x, I, pc, sp, DT, ST and mem. -/
structure DebugView where
  regs : Vector Byte 16
  iReg : Word
  pc : Word
  sp : Word
  dt : Byte
  st : Byte
  mem : List Byte
  deriving DecidableEq, Repr

/-- `read_state()`. -/
def State.debugView (s : State) : DebugView :=
  ⟨s.regs, s.iReg, s.pc, s.sp, s.dt, s.st, s.mem.readBytes 0 Config.memSize⟩

/-! ## One transaction -/

/-- The transactions a host makes after the launch (10_state.md R39). -/
inductive Transaction where
  | step
  | tick
  | keyDown (k : Nat)
  | keyUp (k : Nat)
  | keys
  | framebuffer
  | redrawNeeded
  | ackRedraw
  | readState
  | disassemble (w : Word)
  deriving DecidableEq, Repr

/-- What a transaction hands back to the host. -/
inductive Response where
  /-- the transaction returned and has nothing to say -/
  | ok
  /-- the step raised: the kind with its information and the instruction's address (60_exceptions.md R300) -/
  | faultReport (record : FaultRecord)
  /-- a tick's output: whether it emitted `Tone` (60_exceptions.md R317) -/
  | ticked (tone : Bool)
  | keys (pressed : List Bool)
  | pixels (bits : List Bool)
  | flag (b : Bool)
  | view (v : DebugView)
  /-- the description uses "the same decode tables as execution" (30_encoding.md R105); its text is outside
  the model (92_eei_decisions.md D29; assumption log 16) -/
  | decoded (r : Except DecodeError Instr)
  deriving DecidableEq, Repr

/-- What `step()` returns to its caller: `ok`, or the fault it raised (40_fetch_execute.md R127). -/
def stepResponse (t : State) : Response :=
  match t.fault with
  | none => .ok
  | some record => .faultReport record

/-- One transaction: the state after it and what the host gets (10_state.md R39). Each is atomic
(20_memory.md R73). -/
def transact (t : Transaction) (s : State) : Host.Outcome (State × Response) Fault Refusal :=
  match t with
  | .step =>
    match step s with
    | .next s' => .next (s', stepResponse s')
    | .fault r => .fault r
    | .refused r => .refused r
  | .tick => .next (s.tick, .ticked s.tickTone)
  | .keyDown k =>
    match s.keyDown k with
    | .next s' => .next (s', .ok)
    | .fault r => .fault r
    | .refused r => .refused r
  | .keyUp k =>
    match s.keyUp k with
    | .next s' => .next (s', .ok)
    | .fault r => .fault r
    | .refused r => .refused r
  | .keys => .next (s, .keys s.keys)
  | .framebuffer => .next (s, .pixels s.framebuffer)
  | .redrawNeeded => .next (s, .flag s.redraw)
  | .ackRedraw => .next (s.ackRedraw, .ok)
  | .readState => .next (s, .view s.debugView)
  | .disassemble w => .next (s, .decoded (decode w))

/-- A run: the host's transactions in the order it makes them, any order (20_memory.md R76,
92_eei_decisions.md D19, D28), with what each handed back. -/
def runTransactions : List Transaction → State → Host.Outcome (State × List Response) Fault Refusal
  | [], s => .next (s, [])
  | t :: ts, s =>
    match transact t s with
    | .fault r => .fault r
    | .refused r => .refused r
    | .next (s', out) =>
      match runTransactions ts s' with
      | .fault r => .fault r
      | .refused r => .refused r
      | .next (s'', outs) => .next (s'', out :: outs)

/-! ## The end of a run (60_exceptions.md R326) -/

/-- `finished(s)`: no fault, and the word at pc is 1NNN with NNN = pc. -/
def State.finished (s : State) : Bool :=
  decide (s.fault = none) && decide (s.pc.toNat ≤ 0xFFE) &&
    (match memRead s.mem s.pc.toNat 2 with
     | .ok w => decide (w = 0x1000 ||| s.pc.toNat)
     | .error _ => false)

end Sys2Proof.Machine
end

