-- ==== Sys2Proof/Safety.lean ====
section
/-! DEFINITION. The terms claims use: the invariant of the machine, frames, which instruction writes what, the
sprite image of DXYN, and what it means for a word pattern to be an instruction. -/

namespace Sys2Proof.Machine

/-! ## Invariants -/

/-- "sp is always one of 0xEA0, 0xEA2, …, 0xF00, so the call depth is 0 to 48" (10_state.md R28). -/
abbrev State.StackOk (s : State) : Prop :=
  0xEA0 ≤ s.sp.toNat ∧ s.sp.toNat ≤ 0xF00 ∧ s.sp.toNat % 2 = 0

/-- What every launch has and every step keeps: memory in its canonical form (every listed address inside the image
of 20_memory.md R60), and sp in the stack region (10_state.md R28). -/
abbrev State.Inv (s : State) : Prop := s.mem.wf = true ∧ s.StackOk

/-- I keeps its value, or takes one that "lies between 0 and 0xFFF" (10_state.md R27): only `INIT_I` can be above. -/
abbrev IKeptOrInMemory (s t : State) : Prop := t.iReg = s.iReg ∨ t.iReg.toNat ≤ 0xFFF

/-- A run that has raised no fault (10_state.md R35). -/
abbrev State.Running (s : State) : Prop := s.fault = none

/-! ## Frames -/

/-- The state elements that are neither a general register nor memory. -/
inductive Special where
  | pc
  | i
  | sp
  | dt
  | st
  | redraw
  | fault
  | draws
  deriving DecidableEq, Repr

/-- Every general register but those listed is unchanged. -/
def RegsKeptBut (ds : List Reg) (s t : State) : Prop := ∀ r, r ∉ ds → t.reg r = s.reg r

/-- Every special register but those listed is unchanged, and so are the launch's parameters. -/
def SpecialsKeptBut (es : List Special) (s t : State) : Prop :=
  (Special.pc ∉ es → t.pc = s.pc) ∧ (Special.i ∉ es → t.iReg = s.iReg) ∧
  (Special.sp ∉ es → t.sp = s.sp) ∧ (Special.dt ∉ es → t.dt = s.dt) ∧
  (Special.st ∉ es → t.st = s.st) ∧ (Special.redraw ∉ es → t.redraw = s.redraw) ∧
  (Special.fault ∉ es → t.fault = s.fault) ∧ (Special.draws ∉ es → t.draws = s.draws) ∧
  t.params = s.params

/-- Every byte of memory outside the `n` bytes at `lo` reads as before (all of memory where `n` is 0). -/
def BytesKeptOutside (lo n : Nat) (s t : State) : Prop :=
  ∀ a, (a < lo ∨ lo + n ≤ a) → t.mem.read a = s.mem.read a

/-- What an instruction leaves: every register but `ds`, every special register but `es`, every byte outside
the `n` bytes at `lo`. -/
def Frame (ds : List Reg) (es : List Special) (lo n : Nat) (s t : State) : Prop :=
  RegsKeptBut ds s t ∧ SpecialsKeptBut es s t ∧ BytesKeptOutside lo n s t

/-- The registers an instruction may write (10_state.md R22, 42_register_alu.md R183, 43_display.md R212,
44_keys.md R232, 45_timers.md R250, 46_index_memory.md R265). -/
def destRegs : Instr → List Reg
  | .ldImm x _ => [x]
  | .addImm x _ => [x]
  | .ldReg x _ => [x]
  | .or x _ => [x]
  | .and x _ => [x]
  | .xor x _ => [x]
  | .addReg x _ => [x, vf]
  | .sub x _ => [x, vf]
  | .shr _ y => [y, vf]
  | .subn _ y => [y, vf]
  | .shl x => [x, vf]
  | .rnd x _ => [x]
  | .drw _ _ _ => [vf]
  | .ldFromDt x => [x]
  | .ldKey x => [x]
  | .load x => regsUpTo x
  | .cls => []
  | .ret => []
  | .jp _ => []
  | .call _ => []
  | .seImm _ _ => []
  | .sneImm _ _ => []
  | .seReg _ _ => []
  | .sneReg _ _ => []
  | .ldI _ => []
  | .jpV0 _ => []
  | .skp _ => []
  | .sknp _ => []
  | .ldToDt _ => []
  | .ldToSt _ => []
  | .addI _ => []
  | .ldFont _ => []
  | .ldBcd _ => []
  | .store _ => []

/-- The special registers an instruction may write (10_state.md R25, R26, R28, R29, R30, R33;
60_exceptions.md R301 for the fault record). -/
def destSpecials : Instr → List Special
  | .cls => [.redraw]
  | .ret => [.pc, .sp, .fault]
  | .jp _ => [.pc]
  | .call _ => [.pc, .sp, .fault]
  | .seImm _ _ => [.pc]
  | .sneImm _ _ => [.pc]
  | .seReg _ _ => [.pc]
  | .sneReg _ _ => [.pc]
  | .jpV0 _ => [.pc]
  | .skp _ => [.pc]
  | .sknp _ => [.pc]
  | .ldKey _ => [.pc]
  | .ldI _ => [.i]
  | .ldFont _ => [.i]
  | .addI _ => [.i, .fault]
  | .rnd _ _ => [.draws]
  | .drw _ _ _ => [.redraw, .fault]
  | .ldToDt _ => [.dt]
  | .ldToSt _ => [.st]
  | .ldBcd _ => [.fault]
  | .store _ => [.fault]
  | .load _ => [.fault]
  | .ldImm _ _ => []
  | .addImm _ _ => []
  | .ldReg _ _ => []
  | .or _ _ => []
  | .and _ _ => []
  | .xor _ _ => []
  | .addReg _ _ => []
  | .sub _ _ => []
  | .shr _ _ => []
  | .subn _ _ => []
  | .shl _ => []
  | .ldFromDt _ => []

/-- The bytes an instruction may store to, as first address and count (20_memory.md R72): the stack slot at
sp, the framebuffer, or the bytes at I. The count is 0 for an instruction that stores nothing. -/
def storeWindow (s : State) : Instr → Nat × Nat
  | .call _ => (s.sp.toNat, 2)
  | .cls => (Config.fbBase, 256)
  | .drw _ _ _ => (Config.fbBase, 256)
  | .ldBcd _ => (s.iAddr, 3)
  | .store x => (s.iAddr, x.val + 1)
  | .ret => (0, 0)
  | .jp _ => (0, 0)
  | .seImm _ _ => (0, 0)
  | .sneImm _ _ => (0, 0)
  | .seReg _ _ => (0, 0)
  | .sneReg _ _ => (0, 0)
  | .jpV0 _ => (0, 0)
  | .skp _ => (0, 0)
  | .sknp _ => (0, 0)
  | .ldKey _ => (0, 0)
  | .ldI _ => (0, 0)
  | .ldFont _ => (0, 0)
  | .addI _ => (0, 0)
  | .rnd _ _ => (0, 0)
  | .ldToDt _ => (0, 0)
  | .ldToSt _ => (0, 0)
  | .load _ => (0, 0)
  | .ldImm _ _ => (0, 0)
  | .addImm _ _ => (0, 0)
  | .ldReg _ _ => (0, 0)
  | .or _ _ => (0, 0)
  | .and _ _ => (0, 0)
  | .xor _ _ => (0, 0)
  | .addReg _ _ => (0, 0)
  | .sub _ _ => (0, 0)
  | .shr _ _ => (0, 0)
  | .subn _ _ => (0, 0)
  | .shl _ => (0, 0)
  | .ldFromDt _ => (0, 0)

/-! ## The sprite image (43_display.md R212) -/

/-- Whether the sprite that DXYN reads at I has a 1 at pixel (px, py): the pixel is column `c < 8`, row
`r < n` of the sprite placed at (x[X], x[Y]) with wrap-around, and that bit is 1. -/
def State.spriteAt (s : State) (x y : Reg) (n px py : Nat) : Bool :=
  let c := (px + 64 - (s.reg x).toNat % 64) % 64
  let r := (py + 32 - (s.reg y).toNat % 32) % 32
  decide (c < 8) && decide (r < n) && spriteBit s.params.spriteMsbLeft (s.mem.read (s.iAddr + r)) c

/-! ## Encodings (30_encoding.md R103) -/

/-- Every word with `w & mask = pattern` decodes to the instruction `f w`. -/
def Encoded (pattern mask : Word) (f : Word → Instr) : Prop :=
  ∀ w : Word, w &&& mask = pattern → decode w = .ok (f w)

end Sys2Proof.Machine
end

