-- ==== Sys2Proof/Certificates/Slice0/Obligations.lean ====
section
/-! DEFINITION. The statements of this model, each from the numbered rules of spec/ that its docstring names. In a
statement about `exec`, `s` is the state in the execute phase, whose pc already holds a + 2 (00_scope.md R14), so
the instruction's own address is `s.pc - 2` (assumption log 11). -/

open Sys2Proof Sys2Proof.Machine

/-! ## Encoding -/

/-- 30_encoding.md R90, R91, R103: no bit of an encoding is dropped. Decoding the word, or the bytes, of a
well-formed instruction gives the instruction back, with every operand at every value. -/
def Obligations.DecodeOfEncodeIsTheInstruction : Prop :=
  ∀ (i : Instr) (rest : List Byte), i.WellFormed = true →
    decode (encode i) = .ok i ∧ decodeBytes (encodeBytes i ++ rest) = .ok (i, rest)

/-- 30_encoding.md R103: "A word `w` is an instruction when `w & mask = match`", row by row, and every
instruction has its row among the 34; no word matches two rows (two rows differ in a bit that both masks examine);
a decoded instruction is well formed. -/
def Obligations.DecodeAgreesWithTheOpcodeMap : Prop :=
  (∀ (r : OpcodeRow) (w : Word), r ∈ opcodeMap →
    (r.matchesWord w = true ↔ ∃ i, decode w = .ok i ∧ opcodeRow i = r)) ∧
  (∀ i : Instr, opcodeRow i ∈ opcodeMap) ∧ opcodeMap.length = 34 ∧
  (opcodeMap.Pairwise fun r q => r.mask &&& q.mask &&& (r.pattern ^^^ q.pattern) ≠ 0) ∧
  (∀ (w : Word) (i : Instr), decode w = .ok i → i.WellFormed = true)

/-- 30_encoding.md R95 to R101, 92_eei_decisions.md D10: exactly which words are unknown. -/
def Obligations.UnknownWordsAreExactlyTheListed : Prop :=
  ∀ w : Word, (∃ e, decode w = .error e) ↔
    (fieldG w = 0x0 ∧ fieldNN w ∉ [0xE0, 0xEE]) ∨
    (fieldG w = 0x5 ∧ fieldN w ≠ 0) ∨
    (fieldG w = 0x8 ∧ fieldN w ∈ [0x8, 0x9, 0xA, 0xB, 0xC, 0xD, 0xF]) ∨
    (fieldG w = 0x9 ∧ fieldN w ≠ 0) ∨
    (fieldG w = 0xE ∧ fieldNN w ∉ [0x9E, 0xA1]) ∨
    (fieldG w = 0xF ∧ fieldNN w ∉ [0x07, 0x0A, 0x15, 0x18, 0x1E, 0x29, 0x33, 0x55, 0x65])

/-- 30_encoding.md R95, R96, R97, R98, R100: what the sub-opcode field of each group selects, and that the ten
other groups hold one instruction each. -/
def Obligations.DispatchSelectsByGroup : Prop :=
  (∀ w : Word, fieldG w = 0x0 →
    (fieldNN w = 0xE0 → decode w = .ok .cls) ∧ (fieldNN w = 0xEE → decode w = .ok .ret) ∧
    (fieldNN w ∉ [0xE0, 0xEE] → ∃ e, decode w = .error e)) ∧
  (∀ w : Word, fieldG w = 0x8 →
    (fieldN w = 0x0 → decode w = .ok (.ldReg (fieldX w) (fieldY w))) ∧
    (fieldN w = 0x1 → decode w = .ok (.or (fieldX w) (fieldY w))) ∧
    (fieldN w = 0x2 → decode w = .ok (.and (fieldX w) (fieldY w))) ∧
    (fieldN w = 0x3 → decode w = .ok (.xor (fieldX w) (fieldY w))) ∧
    (fieldN w = 0x4 → decode w = .ok (.addReg (fieldX w) (fieldY w))) ∧
    (fieldN w = 0x5 → decode w = .ok (.sub (fieldX w) (fieldY w))) ∧
    (fieldN w = 0x6 → decode w = .ok (.shr (fieldX w) (fieldY w))) ∧
    (fieldN w = 0x7 → decode w = .ok (.subn (fieldX w) (fieldY w))) ∧
    (fieldN w = 0xE → decode w = .ok (.shl (fieldX w))) ∧
    (fieldN w ∈ [0x8, 0x9, 0xA, 0xB, 0xC, 0xD, 0xF] → ∃ e, decode w = .error e)) ∧
  (∀ w : Word, fieldG w = 0xE →
    (fieldNN w = 0x9E → decode w = .ok (.skp (fieldX w))) ∧
    (fieldNN w = 0xA1 → decode w = .ok (.sknp (fieldX w))) ∧
    (fieldNN w ∉ [0x9E, 0xA1] → ∃ e, decode w = .error e)) ∧
  (∀ w : Word, fieldG w = 0xF →
    (fieldNN w = 0x07 → decode w = .ok (.ldFromDt (fieldX w))) ∧
    (fieldNN w = 0x0A → decode w = .ok (.ldKey (fieldX w))) ∧
    (fieldNN w = 0x15 → decode w = .ok (.ldToDt (fieldX w))) ∧
    (fieldNN w = 0x18 → decode w = .ok (.ldToSt (fieldX w))) ∧
    (fieldNN w = 0x1E → decode w = .ok (.addI (fieldX w))) ∧
    (fieldNN w = 0x29 → decode w = .ok (.ldFont (fieldX w))) ∧
    (fieldNN w = 0x33 → decode w = .ok (.ldBcd (fieldX w))) ∧
    (fieldNN w = 0x55 → decode w = .ok (.store (fieldX w))) ∧
    (fieldNN w = 0x65 → decode w = .ok (.load (fieldX w))) ∧
    (fieldNN w ∉ [0x07, 0x0A, 0x15, 0x18, 0x1E, 0x29, 0x33, 0x55, 0x65] → ∃ e, decode w = .error e)) ∧
  (∀ w : Word,
    (fieldG w = 0x1 → decode w = .ok (.jp (fieldNNN w))) ∧
    (fieldG w = 0x2 → decode w = .ok (.call (fieldNNN w))) ∧
    (fieldG w = 0x3 → decode w = .ok (.seImm (fieldX w) (fieldNN w))) ∧
    (fieldG w = 0x4 → decode w = .ok (.sneImm (fieldX w) (fieldNN w))) ∧
    (fieldG w = 0x6 → decode w = .ok (.ldImm (fieldX w) (fieldNN w))) ∧
    (fieldG w = 0x7 → decode w = .ok (.addImm (fieldX w) (fieldNN w))) ∧
    (fieldG w = 0xA → decode w = .ok (.ldI (fieldNNN w))) ∧
    (fieldG w = 0xB → decode w = .ok (.jpV0 (fieldNNN w))) ∧
    (fieldG w = 0xC → decode w = .ok (.rnd (fieldX w) (fieldNN w))) ∧
    (fieldG w = 0xD → decode w = .ok (.drw (fieldX w) (fieldY w) (fieldN w))))

/-- Words of 95_test_vectors.md, written out from the patterns of 30_encoding.md R103, decode to the instructions
they stand for. -/
def Obligations.SampleWordsDecode : Prop :=
  decode 0x00E0 = .ok .cls ∧ decode 0x0AEE = .ok .ret ∧ decode 0x2300 = .ok (.call 0x300) ∧
  decode 0x3342 = .ok (.seImm 3 0x42) ∧ decode 0x5120 = .ok (.seReg 1 2) ∧
  decode 0x8F14 = .ok (.addReg 0xF 1) ∧ decode 0x8126 = .ok (.shr 1 2) ∧
  decode 0xD015 = .ok (.drw 0 1 5) ∧ decode 0xE3A1 = .ok (.sknp 3) ∧
  decode 0xF515 = .ok (.ldToDt 5) ∧ decode 0xF265 = .ok (.load 2) ∧
  decode 0x5121 = .error .unknownGroup5

/-! ## The step -/

/-- 40_fetch_execute.md R121, R122, R123, R125 and 30_encoding.md R90: when the bytes at pc, the high byte first,
decode to an instruction, the step runs it from the state whose pc is a + 2. -/
def Obligations.StepRunsTheDecodedInstruction : Prop :=
  ∀ (s : State) (i : Instr), s.fault = none → s.pc.toNat ≤ 0xFFE →
    decode (wordOf (s.mem.read s.pc.toNat) (s.mem.read (s.pc.toNat + 1))) = .ok i →
    step s = exec i (s.setPc (s.pc + 2))

/-- 40_fetch_execute.md R124: a word with no handler raises `UnknownInstruction(a, w)`, changes nothing but pc
(and the fault record), and the fault is reported to the host with the address and the raw word. -/
def Obligations.UnknownWordRaises : Prop :=
  ∀ (s : State) (w : Word), s.fault = none → s.pc.toNat ≤ 0xFFE →
    w = wordOf (s.mem.read s.pc.toNat) (s.mem.read (s.pc.toNat + 1)) →
    (∀ i, decode w ≠ .ok i) →
    let record : FaultRecord := ⟨.unknownInstruction s.pc w, s.pc⟩
    let t : State := { s with pc := s.pc + 2, fault := some record }
    step s = .next t ∧ transact .step s = .next (t, .faultReport record)

/-- 40_fetch_execute.md R121, R129 (decision D13): a fetch past 0xFFF raises `MemoryOutOfRange` of the lowest
address above 0xFFF, and pc keeps its value. -/
def Obligations.FetchPastMemoryRaises : Prop :=
  ∀ s : State, s.fault = none → 0xFFE < s.pc.toNat →
    step s = .next { s with
      fault := some ⟨.memoryOutOfRange (if s.pc.toNat > 0xFFF then s.pc.toNat else 0x1000), s.pc⟩ }

/-- 40_fetch_execute.md R120, 60_exceptions.md R312 (decision D14): `step()` on a core with a fault recorded has no
move. That "no move" is the outcome `.fault (.runEnded record)` is the model's (assumption log 10). -/
def Obligations.FaultedCoreHasNoMove : Prop :=
  ∀ (s : State) (r : FaultRecord), s.fault = some r → step s = .fault (.runEnded r)

/-- 60_exceptions.md R300, R309 (decision D13): every fault is precise. A step that raises records its own
instruction's address and changes nothing else but pc, which is a for a fetch fault and a + 2 otherwise. -/
def Obligations.EveryFaultIsPrecise : Prop :=
  ∀ (s t : State) (r : FaultRecord), step s = .next t → t.fault = some r →
    s.fault = none ∧ r.addr = s.pc ∧
    ((0xFFE < s.pc.toNat ∧ t.pc = s.pc) ∨ (s.pc.toNat ≤ 0xFFE ∧ t.pc = s.pc + 2)) ∧
    t = { s with pc := t.pc, fault := some r }

/-- 60_exceptions.md R301, R303 to R306: only CALL, RET, FX1E, DXYN, FX33, FX55 and FX65 raise in their execute
phase, and each only its own kind. The invariant rules out an sp that no run reaches. -/
def Obligations.OnlyListedInstructionsRaise : Prop :=
  ∀ (i : Instr) (s t : State) (r : FaultRecord), s.Inv → s.fault = none → exec i s = .next t →
    t.fault = some r →
    (∃ nnn, i = .call nnn ∧ r.kind = .stackOverflow (s.pc - 2) s.sp) ∨
    (i = .ret ∧ r.kind = .stackUnderflow (s.pc - 2) s.sp) ∨
    (∃ x, i = .addI x ∧ 0xFFF < s.iReg.toNat + (s.reg x).toNat ∧
      r.kind = .addressOverflow (s.pc - 2) (s.iReg.toNat + (s.reg x).toNat)) ∨
    (((∃ x y n, i = .drw x y n) ∨ (∃ x, i = .ldBcd x) ∨ (∃ x, i = .store x) ∨ (∃ x, i = .load x)) ∧
      ∃ a, 0xFFF < a ∧ r.kind = .memoryOutOfRange a)

/-- 40_fetch_execute.md R125, R127: no instruction stops the model. Every instruction in every state, and every
step of a core with no fault recorded, gives a next state (its effect, or its fault recorded). -/
def Obligations.NoInstructionStops : Prop :=
  (∀ (i : Instr) (s : State), ∃ t, exec i s = .next t) ∧
  (∀ s : State, s.fault = none → ∃ t, step s = .next t)

/-! ## Invariants and reset -/

/-- 10_state.md R27, R28, 20_memory.md R60: every step keeps the invariant (memory in its canonical form inside the
image, sp one of 0xEA0, 0xEA2, …, 0xF00), and gives I no new value above 0xFFF. -/
def Obligations.StepKeepsTheInvariant : Prop :=
  ∀ s t : State, s.Inv → step s = .next t → t.Inv ∧ IKeptOrInMemory s t

/-- 10_state.md R28, R40: the state after reset meets the invariant. -/
def Obligations.ResetMeetsTheInvariant : Prop := State.reset.Inv

/-- 20_memory.md R76, 92_eei_decisions.md D19: whatever the host's sequence of steps, ticks, key events and
acknowledgements, the invariant holds after it, and I has its first value or one up to 0xFFF. -/
def Obligations.EveryRunKeepsTheInvariant : Prop :=
  ∀ (ts : List Transaction) (s t : State) (outs : List Response), s.Inv →
    runTransactions ts s = .next (t, outs) → t.Inv ∧ IKeptOrInMemory s t

/-- 10_state.md R40: the reset values that the spec itself gives: pc, sp, redraw and fault. -/
def Obligations.ResetHasTheSpecsValues : Prop :=
  State.reset.pc = 0x200 ∧ State.reset.sp = 0xEA0 ∧ State.reset.redraw = false ∧
  State.reset.fault = none

/-- 70_reset_and_hazards.md R340, 60_exceptions.md R322, 10_state.md R40 (decisions D1 to D5, D14, D21): the state a
launch starts in, for every value of what the source leaves open; a program of more than 3232 bytes is refused. -/
def Obligations.LaunchGivesTheResetState : Prop :=
  ∀ l : Launch,
    (l.program.length ≤ 3232 → ∃ t, l.start = .next t ∧
      t.pc = 0x200 ∧ t.sp = 0xEA0 ∧ t.redraw = false ∧ t.fault = none ∧ t.params = l.params ∧
      t.regs = l.initV ∧ t.iReg = l.initI ∧ t.dt = l.initDt ∧ t.st = l.initSt ∧
      (∀ a, a < 80 → t.mem.read a = l.font a) ∧
      (∀ (j : Nat) (h : j < l.program.length), t.mem.read (0x200 + j) = l.program[j]) ∧
      (∀ a, 80 ≤ a → a ≤ 0xFFF → (a < 0x200 ∨ 0x200 + l.program.length ≤ a) →
        t.mem.read a = l.initMem a)) ∧
    (3232 < l.program.length → l.start = .refused (.programTooLong l.program.length))

/-- 10_state.md R28, 20_memory.md R60, 70_reset_and_hazards.md R340: every launch that is not refused starts inside the
invariant, for every program and every value of what the source leaves open. -/
def Obligations.LaunchMeetsTheInvariant : Prop :=
  ∀ (l : Launch) (t : State), l.start = .next t → t.Inv

/-! ## Memory and bits -/

/-- 20_memory.md R60: canonical memories that hold the same bytes are the same data. -/
def Obligations.EqualMemoriesAreEqualData : Prop :=
  ∀ m m' : Memory, m.wf = true → m'.wf = true → (∀ a, a ≤ 0xFFF → m.read a = m'.read a) → m = m'

/-- Inside the image `MemRead` gives the bytes as one value, most significant byte first, for 1 to 16 of them
(20_memory.md R63), and `MemWrite` stores a value so and changes no other byte (R64); that a value reads back follows
from the two together. Past 0xFFF both raise `MemoryOutOfRange` of the lowest offending address, with no wraparound
(R63, R64, R65). -/
def Obligations.MemoryAccessIsBigEndianAndBounded : Prop :=
  ∀ (m : Memory) (a n v : Nat), 1 ≤ n → n ≤ 16 →
    (a + n ≤ 0x1000 → ∃ r, memRead m a n = .ok r ∧ r < 256 ^ n ∧
      ∀ j, j < n → BitVec.ofNat 8 (r >>> (8 * (n - 1 - j))) = m.read (a + j)) ∧
    (m.wf = true → a + n ≤ 0x1000 → v < 256 ^ n →
      ∃ m', memWrite m a n v = .ok m' ∧ memRead m' a n = .ok v ∧
        (∀ j, j < n → m'.read (a + j) = BitVec.ofNat 8 (v >>> (8 * (n - 1 - j)))) ∧
        (∀ b, (b < a ∨ a + n ≤ b) → m'.read b = m.read b)) ∧
    (0x1000 < a + n →
      ∃ bad, a ≤ bad ∧ bad < a + n ∧ 0xFFF < bad ∧ (∀ c, a ≤ c → c < bad → c ≤ 0xFFF) ∧
        memRead m a n = .error (.memoryOutOfRange bad) ∧
        memWrite m a n v = .error (.memoryOutOfRange bad))

/-- 20_memory.md R67: a bit written reads back, no other bit of the window and no other byte of memory changes, and
the two errors of the bit storage are raised as the rule says. -/
def Obligations.BitStorageWritesOneBit : Prop :=
  (∀ (m : Memory) (base i v : Nat), m.wf = true → base + i / 8 ≤ 0xFFF → v ≤ 1 →
    ∃ m', bitWrite m base i v = .ok m' ∧ bitRead m' base i = .ok (v == 1) ∧
      (∀ j, j ≠ i → m'.bit base j = m.bit base j) ∧
      (∀ a, a ≠ base + i / 8 → m'.read a = m.read a)) ∧
  (∀ (m : Memory) (base i : Nat), base + i / 8 ≤ 0xFFF →
    bitRead m base i = .ok ((m.read (base + i / 8)).getLsbD (i % 8))) ∧
  (∀ (m : Memory) (base i v : Nat), 1 < v → bitWrite m base i v = .error (.invalidBitValue v)) ∧
  (∀ (m : Memory) (base i v : Nat), v ≤ 1 → 0xFFF < base + i / 8 →
    bitWrite m base i v = .error (.bitIndexOutOfRange i)) ∧
  (∀ (m : Memory) (base i : Nat), 0xFFF < base + i / 8 →
    bitRead m base i = .error (.bitIndexOutOfRange i))

/-- 20_memory.md R69, R70, 60_exceptions.md R307, R308 (derived there, decision D25): no pixel access and no key read
raises; the unchecked accesses that the instructions use are the bit storage's own. -/
def Obligations.PixelsAndKeysNeverRaise : Prop :=
  (∀ (m : Memory) (px py v : Nat), px < 64 → py < 32 → v ≤ 1 →
    bitRead m 0xF00 (py * 64 + px) = .ok (m.pixel px py) ∧
    bitWrite m 0xF00 (py * 64 + px) v = .ok (m.setPixel px py (v == 1))) ∧
  (∀ (m : Memory) (k : Nat), k ≤ 255 → bitRead m 0x050 k = .ok (m.key k))

/-- 20_memory.md R78, 70_reset_and_hazards.md R348: a store into the bytes at pc is what the next fetch reads. -/
def Obligations.StoreIsSeenByTheNextFetch : Prop :=
  ∀ (x : Reg) (s t : State), s.mem.wf = true → s.iReg = s.pc → s.pc.toNat + x.val ≤ 0xFFF → 1 ≤ x →
    exec (.store x) s = .next t → t.fetch = .ok (wordOf (s.reg 0) (s.reg 1))

/-! ## Frames of every instruction -/

/-- 10_state.md R22, 42_register_alu.md R183 (decision D26): an instruction changes no register but those `destRegs`
lists for it; VF is listed only for 8XY4 to 8XY7, 8XYE and DXYN, or where it is a named destination. -/
def Obligations.RegistersChangeOnlyInTheirDestinations : Prop :=
  ∀ (i : Instr) (s t : State), exec i s = .next t → RegsKeptBut (destRegs i) s t

/-- 10_state.md R25, R26, R28, R29, R30, R33: pc, I, sp, DT, ST, `redraw` and the fault record are changed only by the
instructions that `destSpecials` lists them for, the parameters by none, and no instruction clears `redraw`. -/
def Obligations.SpecialsChangeOnlyByTheirWriters : Prop :=
  ∀ (i : Instr) (s t : State), exec i s = .next t →
    SpecialsKeptBut (destSpecials i) s t ∧ (s.redraw = true → t.redraw = true)

/-- 20_memory.md R72, 40_fetch_execute.md R125: every byte of memory outside the bytes that the instruction stores to
(`storeWindow`, computed from the state before) reads as before; for an instruction that stores nothing, every byte. -/
def Obligations.MemoryChangesOnlyInTheStoreWindow : Prop :=
  ∀ (i : Instr) (s t : State), exec i s = .next t →
    BytesKeptOutside (storeWindow s i).1 (storeWindow s i).2 s t

/-! ## Control flow (41_control_flow.md) -/

/-- 41_control_flow.md R140. -/
def Obligations.JpSetsPcToNNN : Prop :=
  Encoded 0x1000 0xF000 (fun w => .jp (fieldNNN w)) ∧
  ∀ (nnn : Addr12) (s : State), ∃ t, exec (.jp nnn) s = .next t ∧ t.pc.toNat = nnn.toNat ∧
    Frame [] [.pc] 0 0 s t

/-- 41_control_flow.md R143. Where the target is above 0xFFE, the next step raises `MemoryOutOfRange`: that this fetch
keeps pc, and that it names 0x1000 for a target of 0xFFF, is 40_fetch_execute.md R121 (decision D13; assumption
log 18). -/
def Obligations.JpV0AddsV0ToNNN : Prop :=
  Encoded 0xB000 0xF000 (fun w => .jpV0 (fieldNNN w)) ∧
  ∀ (nnn : Addr12) (s : State), ∃ t, exec (.jpV0 nnn) s = .next t ∧
    t.pc.toNat = nnn.toNat + (s.reg 0).toNat ∧ t.pc.toNat ≤ 0x10FE ∧ Frame [] [.pc] 0 0 s t ∧
    (s.fault = none → 0xFFE < t.pc.toNat → step t = .next { t with
      fault := some ⟨.memoryOutOfRange (if t.pc.toNat > 0xFFF then t.pc.toNat else 0x1000), t.pc⟩ })

/-- 41_control_flow.md R141 (the bound is decision D11): the return address a + 2 is pushed big-endian at sp, sp moves
up by 2, pc becomes NNN. -/
def Obligations.CallPushesTheReturnAddress : Prop :=
  Encoded 0x2000 0xF000 (fun w => .call (fieldNNN w)) ∧
  ∀ (nnn : Addr12) (s : State), s.mem.wf = true → s.sp.toNat + 2 ≤ 0xF00 →
    ∃ t, exec (.call nnn) s = .next t ∧
      t.mem.read s.sp.toNat = s.pc.extractLsb' 8 8 ∧
      t.mem.read (s.sp.toNat + 1) = s.pc.extractLsb' 0 8 ∧
      t.sp.toNat = s.sp.toNat + 2 ∧ t.pc.toNat = nnn.toNat ∧
      Frame [] [.pc, .sp] s.sp.toNat 2 s t

/-- 41_control_flow.md R142 (the bound is decision D11): pc becomes the 16-bit value below sp, sp moves down by 2. The
premise on sp holds in every state of a run (10_state.md R28). -/
def Obligations.RetPopsPc : Prop :=
  Encoded 0x00EE 0xF0FF (fun _ => .ret) ∧
  ∀ s : State, 0xEA2 ≤ s.sp.toNat → s.sp.toNat ≤ 0x1000 →
    ∃ t, exec .ret s = .next t ∧
      t.pc = wordOf (s.mem.read (s.sp.toNat - 2)) (s.mem.read (s.sp.toNat - 1)) ∧
      t.sp.toNat = s.sp.toNat - 2 ∧ Frame [] [.pc, .sp] 0 0 s t

/-- 41_control_flow.md R141, R142, 60_exceptions.md R304, R305 (decision D11): CALL past 0xEFF and RET below 0xEA2 raise
and write nothing. The last clause, an sp above 0x1000 that no run reaches, is the model's reading of `MemRead`
(assumption log 12). -/
def Obligations.StackBoundsRaise : Prop :=
  (∀ (nnn : Addr12) (s : State), 0xF00 < s.sp.toNat + 2 →
    exec (.call nnn) s = .next { s with fault := some ⟨.stackOverflow (s.pc - 2) s.sp, s.pc - 2⟩ }) ∧
  (∀ s : State, s.sp.toNat < 0xEA2 →
    exec .ret s = .next { s with fault := some ⟨.stackUnderflow (s.pc - 2) s.sp, s.pc - 2⟩ }) ∧
  (∀ s : State, 0x1000 < s.sp.toNat →
    let bad := if s.sp.toNat - 2 > 0xFFF then s.sp.toNat - 2 else 0x1000
    exec .ret s = .next { s with fault := some ⟨.memoryOutOfRange bad, s.pc - 2⟩ })

/-- 41_control_flow.md R142: "executing `2NNN` then `00EE` restores `pc` to the instruction immediately after the
original call site", whatever pc the subroutine's RET is at, and sp too. -/
def Obligations.CallThenRetReturns : Prop :=
  ∀ (nnn : Addr12) (s t : State) (q : Word), s.mem.wf = true → 0xEA0 ≤ s.sp.toNat →
    s.sp.toNat + 2 ≤ 0xF00 → exec (.call nnn) s = .next t →
    ∃ u, exec .ret (t.setPc q) = .next u ∧ u.pc = s.pc ∧ u.sp = s.sp

/-- 41_control_flow.md R144, R145, with R144's property that 6XNN and then 3XNN with the same NN always skips. -/
def Obligations.ImmediateSkips : Prop :=
  Encoded 0x3000 0xF000 (fun w => .seImm (fieldX w) (fieldNN w)) ∧
  Encoded 0x4000 0xF000 (fun w => .sneImm (fieldX w) (fieldNN w)) ∧
  ∀ (x : Reg) (nn : Byte) (s : State),
    (∃ t u, exec (.ldImm x nn) s = .next t ∧ exec (.seImm x nn) (t.setPc (t.pc + 2)) = .next u ∧
      u.pc = t.pc + 4) ∧
    (∃ t, exec (.seImm x nn) s = .next t ∧
      t.pc = (if s.reg x = nn then s.pc + 2 else s.pc) ∧ Frame [] [.pc] 0 0 s t) ∧
    (∃ t, exec (.sneImm x nn) s = .next t ∧
      t.pc = (if s.reg x = nn then s.pc else s.pc + 2) ∧ Frame [] [.pc] 0 0 s t)

/-- 41_control_flow.md R146, R147 (N must be 0: decision D10). -/
def Obligations.RegisterSkips : Prop :=
  Encoded 0x5000 0xF00F (fun w => .seReg (fieldX w) (fieldY w)) ∧
  Encoded 0x9000 0xF00F (fun w => .sneReg (fieldX w) (fieldY w)) ∧
  ∀ (x y : Reg) (s : State),
    (∃ t, exec (.seReg x y) s = .next t ∧
      t.pc = (if s.reg x = s.reg y then s.pc + 2 else s.pc) ∧ Frame [] [.pc] 0 0 s t) ∧
    (∃ t, exec (.sneReg x y) s = .next t ∧
      t.pc = (if s.reg x = s.reg y then s.pc else s.pc + 2) ∧ Frame [] [.pc] 0 0 s t)

/-! ## Register loads and the ALU (42_register_alu.md) -/

/-- 42_register_alu.md R170, R171, R172: a byte is stored, or added modulo 256 with no flag, or a register is
copied. -/
def Obligations.LoadsAndImmediateAdd : Prop :=
  Encoded 0x6000 0xF000 (fun w => .ldImm (fieldX w) (fieldNN w)) ∧
  Encoded 0x7000 0xF000 (fun w => .addImm (fieldX w) (fieldNN w)) ∧
  Encoded 0x8000 0xF00F (fun w => .ldReg (fieldX w) (fieldY w)) ∧
  (∀ (x : Reg) (nn : Byte) (s : State),
    (∃ t, exec (.ldImm x nn) s = .next t ∧ t.reg x = nn ∧ Frame [x] [] 0 0 s t) ∧
    (∃ t, exec (.addImm x nn) s = .next t ∧
      (t.reg x).toNat = ((s.reg x).toNat + nn.toNat) % 256 ∧ Frame [x] [] 0 0 s t)) ∧
  (∀ (x y : Reg) (s : State), ∃ t, exec (.ldReg x y) s = .next t ∧ t.reg x = s.reg y ∧
    Frame [x] [] 0 0 s t)

/-- 42_register_alu.md R173, R174, R175 (VF is no flag: decision D26): each bit of the result. -/
def Obligations.LogicKeepsVf : Prop :=
  Encoded 0x8001 0xF00F (fun w => .or (fieldX w) (fieldY w)) ∧
  Encoded 0x8002 0xF00F (fun w => .and (fieldX w) (fieldY w)) ∧
  Encoded 0x8003 0xF00F (fun w => .xor (fieldX w) (fieldY w)) ∧
  ∀ (x y : Reg) (s : State),
    (∃ t, exec (.or x y) s = .next t ∧
      (∀ k, (t.reg x).getLsbD k = ((s.reg x).getLsbD k || (s.reg y).getLsbD k)) ∧
      Frame [x] [] 0 0 s t) ∧
    (∃ t, exec (.and x y) s = .next t ∧
      (∀ k, (t.reg x).getLsbD k = ((s.reg x).getLsbD k && (s.reg y).getLsbD k)) ∧
      Frame [x] [] 0 0 s t) ∧
    (∃ t, exec (.xor x y) s = .next t ∧
      (∀ k, (t.reg x).getLsbD k = ((s.reg x).getLsbD k ^^ (s.reg y).getLsbD k)) ∧
      Frame [x] [] 0 0 s t)

/-- 42_register_alu.md R176 (VF as destination: decision D8, for both orders). -/
def Obligations.AddSetsCarry : Prop :=
  Encoded 0x8004 0xF00F (fun w => .addReg (fieldX w) (fieldY w)) ∧
  ∀ (x y : Reg) (s : State),
    let sum := (s.reg x).toNat + (s.reg y).toNat
    let carry : Byte := if sum > 255 then 1 else 0
    ∃ t, exec (.addReg x y) s = .next t ∧ Frame [x, vf] [] 0 0 s t ∧
      (x ≠ vf → (t.reg x).toNat = sum % 256 ∧ t.reg vf = carry) ∧
      (x = vf → s.params.aluAliasOrder = .flagThenResult → (t.reg vf).toNat = sum % 256) ∧
      (x = vf → s.params.aluAliasOrder = .resultThenFlag → t.reg vf = carry)

/-- 42_register_alu.md R177 (VF as destination: decision D8, for both orders): the flag is strictly greater. -/
def Obligations.SubSetsStrictlyGreater : Prop :=
  Encoded 0x8005 0xF00F (fun w => .sub (fieldX w) (fieldY w)) ∧
  ∀ (x y : Reg) (s : State),
    let r := ((s.reg x).toNat + 256 - (s.reg y).toNat) % 256
    let flag : Byte := if (s.reg x).toNat > (s.reg y).toNat then 1 else 0
    ∃ t, exec (.sub x y) s = .next t ∧ Frame [x, vf] [] 0 0 s t ∧
      (x ≠ vf → (t.reg x).toNat = r ∧ t.reg vf = flag) ∧
      (x = vf → s.params.aluAliasOrder = .flagThenResult → (t.reg vf).toNat = r) ∧
      (x = vf → s.params.aluAliasOrder = .resultThenFlag → t.reg vf = flag)

/-- 42_register_alu.md R179 (VF as destination: decision D8, for both orders): the result goes into register Y. -/
def Obligations.SubnWritesRegisterY : Prop :=
  Encoded 0x8007 0xF00F (fun w => .subn (fieldX w) (fieldY w)) ∧
  ∀ (x y : Reg) (s : State),
    let r := ((s.reg y).toNat + 256 - (s.reg x).toNat) % 256
    let flag : Byte := if (s.reg y).toNat > (s.reg x).toNat then 1 else 0
    ∃ t, exec (.subn x y) s = .next t ∧ Frame [y, vf] [] 0 0 s t ∧
      (y ≠ vf → (t.reg y).toNat = r ∧ t.reg vf = flag) ∧
      (y = vf → s.params.aluAliasOrder = .flagThenResult → (t.reg vf).toNat = r) ∧
      (y = vf → s.params.aluAliasOrder = .resultThenFlag → t.reg vf = flag)

/-- 42_register_alu.md R178 (the order of the writes: decision D9): the flag is bit 0 of register X, the shift is of
register Y; where Y is VF, VF ends as 0. -/
def Obligations.ShrShiftsRegisterY : Prop :=
  Encoded 0x8006 0xF00F (fun w => .shr (fieldX w) (fieldY w)) ∧
  ∀ (x y : Reg) (s : State), ∃ t, exec (.shr x y) s = .next t ∧ Frame [y, vf] [] 0 0 s t ∧
    (y ≠ vf → (t.reg y).toNat = (s.reg y).toNat / 2 ∧
      (t.reg vf).toNat = (s.reg x).toNat % 2) ∧
    (y = vf → t.reg vf = 0)

/-- 42_register_alu.md R180 (the flag bit: decision D7, for every value of the parameter; the order of the writes:
decision D9): where X is VF, VF ends as twice the flag. -/
def Obligations.ShlTakesItsFlagByParameter : Prop :=
  Encoded 0x800E 0xF00F (fun w => .shl (fieldX w)) ∧
  ∀ (x : Reg) (s : State), ∃ (t : State) (flag : Nat), exec (.shl x) s = .next t ∧
    Frame [x, vf] [] 0 0 s t ∧
    (s.params.shlFlag = .bit3 → flag = (s.reg x).toNat / 8 % 2) ∧
    (s.params.shlFlag = .lowNibbleNonzero → flag = if (s.reg x).toNat % 16 = 0 then 0 else 1) ∧
    (s.params.shlFlag = .bit7 → flag = (s.reg x).toNat / 128) ∧
    (x ≠ vf → (t.reg x).toNat = (s.reg x).toNat * 2 % 256 ∧ (t.reg vf).toNat = flag) ∧
    (x = vf → (t.reg vf).toNat = flag * 2)

/-- 42_register_alu.md R181 (a draw under no law: decision D17): the draw is the free value `Config.drawByte`, of which
nothing is known, and the next execution makes another draw (assumption log 9). -/
def Obligations.RndMasksTheDrawnByte : Prop :=
  Encoded 0xC000 0xF000 (fun w => .rnd (fieldX w) (fieldNN w)) ∧
  ∀ (x : Reg) (nn : Byte) (s : State), ∃ t, exec (.rnd x nn) s = .next t ∧
    t.reg x = Config.drawByte s.draws &&& nn ∧ (nn = 0 → t.reg x = 0) ∧
    (nn = 0xFF → t.reg x = Config.drawByte s.draws) ∧ t.draws = s.draws + 1 ∧
    Frame [x] [.draws] 0 0 s t

/-! ## Display (43_display.md) -/

/-- 43_display.md R211 (VF unchanged: decision D26): every framebuffer byte and bit is 0 and `redraw` is set. -/
def Obligations.ClsClearsTheScreen : Prop :=
  Encoded 0x00E0 0xF0FF (fun _ => .cls) ∧
  ∀ s : State, s.mem.wf = true → ∃ t, exec .cls s = .next t ∧
    (∀ a, 0xF00 ≤ a → a ≤ 0xFFF → t.mem.read a = 0) ∧
    (∀ i, i < 2048 → t.mem.bit 0xF00 i = false) ∧ t.redraw = true ∧
    Frame [] [.redraw] 0xF00 256 s t

/-- 43_display.md R212 (decisions D6, for both bit orders, D13 and D16): DXYN is the exclusive or of the screen with the
sprite's image placed with wrap-around; VF is 1 exactly when some sprite bit lies over a set pixel; `redraw` is set
exactly when some sprite bit is 1. -/
def Obligations.DrwXorsTheSprite : Prop :=
  Encoded 0xD000 0xF000 (fun w => .drw (fieldX w) (fieldY w) (fieldN w)) ∧
  ∀ (x y : Reg) (n : Nat) (s : State), n ≤ 15 → s.mem.wf = true → (n = 0 ∨ s.iAddr + n ≤ 0x1000) →
    ∃ t, exec (.drw x y n) s = .next t ∧ Frame [vf] [.redraw] 0xF00 256 s t ∧
      (∀ px py, px < 64 → py < 32 →
        t.mem.pixel px py = (s.mem.pixel px py ^^ s.spriteAt x y n px py)) ∧
      ((∃ px py, px < 64 ∧ py < 32 ∧ s.spriteAt x y n px py = true ∧ s.mem.pixel px py = true) →
        t.reg vf = 1) ∧
      ((∀ px py, px < 64 → py < 32 → s.spriteAt x y n px py = true → s.mem.pixel px py = false) →
        t.reg vf = 0) ∧
      (t.redraw = true ↔
        (s.redraw = true ∨ ∃ px py, px < 64 ∧ py < 32 ∧ s.spriteAt x y n px py = true))

/-- 43_display.md R212: "drawing an identical sprite twice at the same coordinates clears every pixel it previously set
and sets `reg[0xF] == 1` on the second draw". The premises say what makes the second sprite identical: the sprite's
bytes lie below the framebuffer and no coordinate is VF. -/
def Obligations.DrwTwiceRestoresTheScreen : Prop :=
  ∀ (x y : Reg) (n : Nat) (s t u : State), n ≤ 15 → s.mem.wf = true → s.iAddr + n ≤ 0xF00 →
    x ≠ vf → y ≠ vf → exec (.drw x y n) s = .next t → exec (.drw x y n) t = .next u →
    (∀ px py, px < 64 → py < 32 → u.mem.pixel px py = s.mem.pixel px py) ∧
    ((∃ px py, px < 64 ∧ py < 32 ∧ s.spriteAt x y n px py = true ∧ s.mem.pixel px py = false) →
      u.reg vf = 1)

/-- 60_exceptions.md R303 (decision D13): a sprite, digits, a store or a load that runs past 0xFFF raises
`MemoryOutOfRange` of the lowest offending address and writes nothing. -/
def Obligations.AccessPastMemoryRaises : Prop :=
  ∀ s : State,
    let t : State := { s with
      fault := some ⟨.memoryOutOfRange (if s.iAddr > 0xFFF then s.iAddr else 0x1000), s.pc - 2⟩ }
    (∀ (x y : Reg) (n : Nat), 0 < n → 0xFFF < s.iAddr + n - 1 → exec (.drw x y n) s = .next t) ∧
    (∀ x : Reg, 0xFFF < s.iAddr + 2 → exec (.ldBcd x) s = .next t) ∧
    (∀ x : Reg, 0xFFF < s.iAddr + x.val → exec (.store x) s = .next t) ∧
    (∀ x : Reg, 0xFFF < s.iAddr + x.val → exec (.load x) s = .next t)

/-! ## Keys and timers (44_keys.md, 45_timers.md) -/

/-- 44_keys.md R230, R231 (key indices above 15: decision D25): the key bit is bit k mod 8 of byte 0x050 + k / 8. -/
def Obligations.KeySkips : Prop :=
  Encoded 0xE09E 0xF0FF (fun w => .skp (fieldX w)) ∧
  Encoded 0xE0A1 0xF0FF (fun w => .sknp (fieldX w)) ∧
  ∀ (x : Reg) (s : State),
    let k := (s.reg x).toNat
    let pressed := (s.mem.read (0x050 + k / 8)).getLsbD (k % 8)
    (∃ t, exec (.skp x) s = .next t ∧ t.pc = (if pressed = true then s.pc + 2 else s.pc) ∧
      Frame [] [.pc] 0 0 s t) ∧
    (∃ t, exec (.sknp x) s = .next t ∧ t.pc = (if pressed = true then s.pc else s.pc + 2) ∧
      Frame [] [.pc] 0 0 s t)

/-- 44_keys.md R232 (level, keys 0 to 15, lowest: decision D27): with no key pressed pc goes back to the instruction
itself; else x[X] takes the lowest pressed key and pc stays a + 2. -/
def Obligations.KeyWaitRepeatsOrTakesTheLowestKey : Prop :=
  Encoded 0xF00A 0xF0FF (fun w => .ldKey (fieldX w)) ∧
  ∀ (x : Reg) (s : State),
    ((∀ k, k ≤ 15 → s.mem.key k = false) →
      ∃ t, exec (.ldKey x) s = .next t ∧ t.pc = s.pc - 2 ∧ Frame [] [.pc] 0 0 s t) ∧
    (∀ k, k ≤ 15 → s.mem.key k = true → (∀ j, j < k → s.mem.key j = false) →
      ∃ t, exec (.ldKey x) s = .next t ∧ (t.reg x).toNat = k ∧ Frame [x] [] 0 0 s t)

/-- 45_timers.md R250, R251, R252 (decisions D18, D19): DT is read and written, ST is written. -/
def Obligations.TimerInstructionsMoveOneByte : Prop :=
  Encoded 0xF007 0xF0FF (fun w => .ldFromDt (fieldX w)) ∧
  Encoded 0xF015 0xF0FF (fun w => .ldToDt (fieldX w)) ∧
  Encoded 0xF018 0xF0FF (fun w => .ldToSt (fieldX w)) ∧
  ∀ (x : Reg) (s : State),
    (∃ t, exec (.ldFromDt x) s = .next t ∧ t.reg x = s.dt ∧ Frame [x] [] 0 0 s t) ∧
    (∃ t, exec (.ldToDt x) s = .next t ∧ t.dt = s.reg x ∧ Frame [] [.dt] 0 0 s t) ∧
    (∃ t, exec (.ldToSt x) s = .next t ∧ t.st = s.reg x ∧ Frame [] [.st] 0 0 s t)

/-! ## The address register and memory (46_index_memory.md) -/

/-- 46_index_memory.md R260, R262: I takes NNN, or five times the register, unreduced. -/
def Obligations.LdIAndGlyphAddress : Prop :=
  Encoded 0xA000 0xF000 (fun w => .ldI (fieldNNN w)) ∧
  Encoded 0xF029 0xF0FF (fun w => .ldFont (fieldX w)) ∧
  (∀ (nnn : Addr12) (s : State), ∃ t, exec (.ldI nnn) s = .next t ∧
    t.iReg.toNat = nnn.toNat ∧ Frame [] [.i] 0 0 s t) ∧
  (∀ (x : Reg) (s : State), ∃ t, exec (.ldFont x) s = .next t ∧
    t.iReg.toNat = (s.reg x).toNat * 5 ∧ Frame [] [.i] 0 0 s t)

/-- 46_index_memory.md R261, 60_exceptions.md R306 (the fault is decision D12): a sum up to 0xFFF is stored unmasked, a
larger one raises `AddressOverflow` and leaves I; VF is never written. -/
def Obligations.AddIStaysInMemory : Prop :=
  Encoded 0xF01E 0xF0FF (fun w => .addI (fieldX w)) ∧
  ∀ (x : Reg) (s : State),
    let sum := s.iReg.toNat + (s.reg x).toNat
    (sum ≤ 0xFFF → ∃ t, exec (.addI x) s = .next t ∧ t.iReg.toNat = sum ∧
      Frame [] [.i] 0 0 s t) ∧
    (0xFFF < sum → exec (.addI x) s =
      .next { s with fault := some ⟨.addressOverflow (s.pc - 2) sum, s.pc - 2⟩ })

/-- 46_index_memory.md R263 (checks first: decision D13): the three bytes at I are the decimal digits of the register. -/
def Obligations.BcdStoresTheDecimalDigits : Prop :=
  Encoded 0xF033 0xF0FF (fun w => .ldBcd (fieldX w)) ∧
  ∀ (x : Reg) (s : State), s.mem.wf = true → s.iAddr + 2 ≤ 0xFFF →
    ∃ t, exec (.ldBcd x) s = .next t ∧
      (t.mem.read s.iAddr).toNat * 100 + (t.mem.read (s.iAddr + 1)).toNat * 10 +
        (t.mem.read (s.iAddr + 2)).toNat = (s.reg x).toNat ∧
      (t.mem.read s.iAddr).toNat ≤ 2 ∧ (t.mem.read (s.iAddr + 1)).toNat ≤ 9 ∧
      (t.mem.read (s.iAddr + 2)).toNat ≤ 9 ∧ Frame [] [] s.iAddr 3 s t

/-- 46_index_memory.md R264 (I kept: decision D26; checks first: D13): registers 0 to X, X included, go to the bytes
from I on. -/
def Obligations.StoreWritesRegistersZeroToX : Prop :=
  Encoded 0xF055 0xF0FF (fun w => .store (fieldX w)) ∧
  ∀ (x : Reg) (s : State), s.mem.wf = true → s.iAddr + x.val ≤ 0xFFF →
    ∃ t, exec (.store x) s = .next t ∧
      (∀ r : Reg, r ≤ x → t.mem.read (s.iAddr + r.val) = s.reg r) ∧
      Frame [] [] s.iAddr (x.val + 1) s t

/-- 46_index_memory.md R265 (I kept: decision D26; checks first: D13): registers 0 to X take the bytes from I on, the
others keep their values. -/
def Obligations.LoadReadsRegistersZeroToX : Prop :=
  Encoded 0xF065 0xF0FF (fun w => .load (fieldX w)) ∧
  ∀ (x : Reg) (s : State), s.iAddr + x.val ≤ 0xFFF →
    ∃ t, exec (.load x) s = .next t ∧
      (∀ r : Reg, r ≤ x → t.reg r = s.mem.read (s.iAddr + r.val)) ∧
      (∀ r : Reg, x < r → t.reg r = s.reg r) ∧ Frame (regsUpTo x) [] 0 0 s t

/-! ## The tick engine and the host's transactions (60_exceptions.md) -/

/-- 60_exceptions.md R316: each tick takes 1 from each timer that is above zero, never below 0, and touches nothing else;
so after `n` ticks each timer is down by `n`, or 0. -/
def Obligations.TickCountsEachTimerDown : Prop :=
  ∀ (n : Nat) (s : State),
    (State.tick^[n] s).dt.toNat = s.dt.toNat - n ∧ (State.tick^[n] s).st.toNat = s.st.toNat - n ∧
    State.tick^[n] s = { s with dt := (State.tick^[n] s).dt, st := (State.tick^[n] s).st }

/-- 60_exceptions.md R317 (decision D18): a tick emits `Tone` exactly when it takes ST from 1 to 0, and no other
transaction emits it, a step that runs FX18 included. -/
def Obligations.ToneOnlyWhenATickEndsTheSound : Prop :=
  (∀ s : State, ∃ tone, transact .tick s = .next (s.tick, .ticked tone) ∧
    (tone = true ↔ s.st.toNat = 1 ∧ s.tick.st.toNat = 0)) ∧
  (∀ (tr : Transaction) (s t : State), transact tr s = .next (t, .ticked true) → tr = .tick)

/-- 60_exceptions.md R320 (indices above 15: decision D20): `key_down` and `key_up` set and clear their own key's bit and
nothing else, change nothing where the key is so already, and have no move for an index above 15. -/
def Obligations.KeyTransactionsSetOneKey : Prop :=
  ∀ (s : State) (k : Nat),
    (s.mem.wf = true → k ≤ 15 →
      (∃ t, transact (.keyDown k) s = .next (t, .ok) ∧ t.mem.key k = true ∧
        (∀ j, j ≠ k → t.mem.key j = s.mem.key j) ∧ Frame [] [] (0x050 + k / 8) 1 s t ∧
        (s.mem.key k = true → t = s)) ∧
      (∃ t, transact (.keyUp k) s = .next (t, .ok) ∧ t.mem.key k = false ∧
        (∀ j, j ≠ k → t.mem.key j = s.mem.key j) ∧ Frame [] [] (0x050 + k / 8) 1 s t ∧
        (s.mem.key k = false → t = s))) ∧
    (15 < k → transact (.keyDown k) s = .refused (.keyIndexOutOfRange k) ∧
      transact (.keyUp k) s = .refused (.keyIndexOutOfRange k))

/-- 60_exceptions.md R319, R320, R323 (decisions D4, D29): `ack_redraw()` clears `redraw` and nothing else; the queries
change nothing, and give the 16 key bits, the 2048 pixel bits, `redraw` and the decoder's own answer. -/
def Obligations.QueriesChangeNothing : Prop :=
  ∀ s : State,
    transact .ackRedraw s = .next ({ s with redraw := false }, .ok) ∧
    transact .redrawNeeded s = .next (s, .flag s.redraw) ∧
    (∃ ks, transact .keys s = .next (s, .keys ks) ∧ ks.length = 16 ∧
      ∀ (k : Nat) (h : k < ks.length), ks[k] = s.mem.bit 0x050 k) ∧
    (∃ bs, transact .framebuffer s = .next (s, .pixels bs) ∧ bs.length = 2048 ∧
      ∀ x y : Nat, x < 64 → y < 32 → bs[y * 64 + x]? = some (s.mem.pixel x y)) ∧
    (∃ v, transact .readState s = .next (s, .view v) ∧ v.regs = s.regs ∧ v.iReg = s.iReg ∧
      v.pc = s.pc ∧ v.sp = s.sp ∧ v.dt = s.dt ∧ v.st = s.st ∧ v.mem.length = 4096 ∧
      ∀ a, a ≤ 0xFFF → v.mem[a]? = some (s.mem.read a)) ∧
    (∀ w : Word, transact (.disassemble w) s = .next (s, .decoded (decode w)))

/-- 60_exceptions.md R300, R312 (decision D14): once a fault is recorded, no run of transactions changes the record. -/
def Obligations.FaultIsNeverCleared : Prop :=
  ∀ (ts : List Transaction) (s t : State) (outs : List Response) (r : FaultRecord),
    s.fault = some r → runTransactions ts s = .next (t, outs) → t.fault = some r

/-- 60_exceptions.md R326 (decision D30): in a finished state every further step leaves the state unchanged. -/
def Obligations.FinishedStateStays : Prop :=
  ∀ s : State, s.finished = true → step s = .next s
end

