-- ==== Sys2Proof/Laws/Memory.lean ====
section
/-! SUPPORT. The laws of memory: a read after a write, the canonical form kept by every operation, equal reads
make equal memories, and what byte sequences and bounds do. -/

namespace Sys2Proof.Machine

/-! ## One byte -/

@[simp] theorem Memory.read_nil (a : Nat) : Memory.read [] a = resetByte a := rfl

theorem Memory.read_cons (k : Nat) (c : Byte) (rest : Memory) (a : Nat) :
    Memory.read ((k, c) :: rest) a = if k = a then c else Memory.read rest a := rfl

/-- Every listed address is above `k`. -/
abbrev Memory.above (k : Nat) (m : Memory) : Prop := ∀ e ∈ m, k < e.1

theorem Memory.wf_cons (k : Nat) (c : Byte) (rest : Memory) :
    Memory.wf ((k, c) :: rest) = true ↔
      k ≤ 0xFFF ∧ c ≠ resetByte k ∧ Memory.above k rest ∧ Memory.wf rest = true := by
  simp [Memory.wf, Memory.above, and_assoc]

/-- An address below every listed one reads as unlisted. -/
theorem Memory.read_of_above {m : Memory} {k : Nat} (h : Memory.above k m) :
    Memory.read m k = resetByte k := by
  induction m with
  | nil => rfl
  | cons e rest ih =>
    obtain ⟨a, c⟩ := e
    have ha : k < a := h (a, c) (by simp)
    rw [Memory.read_cons, if_neg (by omega)]
    exact ih (fun e he => h e (by simp [he]))

theorem Memory.above_mono {m : Memory} {j k : Nat} (hjk : j ≤ k) (h : Memory.above k m) :
    Memory.above j m := fun e he => Nat.lt_of_le_of_lt hjk (h e he)

theorem Memory.read_putCell_ne (a : Nat) (b : Byte) (rest : Memory) {a' : Nat} (h : a' ≠ a) :
    Memory.read (Memory.cons a b rest) a' = Memory.read rest a' := by
  unfold Memory.cons
  split
  · rfl
  · rw [Memory.read_cons, if_neg (by omega)]

theorem Memory.read_putCell_same (a : Nat) (b : Byte) {rest : Memory} (h : Memory.above a rest) :
    Memory.read (Memory.cons a b rest) a = b := by
  unfold Memory.cons
  split
  · next hb => rw [Memory.read_of_above h, hb]
  · rw [Memory.read_cons, if_pos rfl]

theorem Memory.above_putCell {j a : Nat} (b : Byte) {rest : Memory} (hj : j < a)
    (h : Memory.above j rest) : Memory.above j (Memory.cons a b rest) := by
  unfold Memory.cons
  split
  · exact h
  · intro e he
    rcases List.mem_cons.1 he with rfl | he
    · exact hj
    · exact h e he

theorem Memory.wf_putCell {a : Nat} (b : Byte) {rest : Memory} (ha : a ≤ 0xFFF)
    (hr : Memory.above a rest) (hw : Memory.wf rest = true) :
    Memory.wf (Memory.cons a b rest) = true := by
  unfold Memory.cons
  split
  · exact hw
  · next hb => exact (Memory.wf_cons _ _ _).2 ⟨ha, hb, hr, hw⟩

/-- A write leaves every other address alone. -/
theorem Memory.read_write_ne (m : Memory) (a : Nat) (b : Byte) {a' : Nat} (h : a' ≠ a) :
    (m.write a b).read a' = m.read a' := by
  induction m with
  | nil => simp only [Memory.write]; rw [Memory.read_putCell_ne a b _ h]
  | cons e rest ih =>
    obtain ⟨k, c⟩ := e
    simp only [Memory.write]
    split
    · rw [Memory.read_putCell_ne a b _ h]
    · split
      · next hk => subst hk; rw [Memory.read_putCell_ne a b _ h, Memory.read_cons, if_neg (by omega)]
      · rw [Memory.read_cons, Memory.read_cons, ih]

/-- A read after a write to the same address gives the byte written. -/
theorem Memory.read_write_same {m : Memory} (hm : m.wf = true) (a : Nat) (b : Byte) :
    (m.write a b).read a = b := by
  induction m with
  | nil => exact Memory.read_putCell_same a b (by simp [Memory.above])
  | cons e rest ih =>
    obtain ⟨k, c⟩ := e
    obtain ⟨_, _, hab, hw⟩ := (Memory.wf_cons _ _ _).1 hm
    simp only [Memory.write]
    split
    · next hk =>
      apply Memory.read_putCell_same
      intro e he
      rcases List.mem_cons.1 he with rfl | he
      · exact hk
      · exact Nat.lt_trans hk (hab e he)
    · split
      · next hk => subst hk; exact Memory.read_putCell_same _ b hab
      · next hk => rw [Memory.read_cons, if_neg (by omega)]; exact ih hw

theorem Memory.above_write {m : Memory} {j a : Nat} (b : Byte) (hj : j < a) (h : Memory.above j m) :
    Memory.above j (m.write a b) := by
  induction m with
  | nil => exact Memory.above_putCell b hj h
  | cons e rest ih =>
    obtain ⟨k, c⟩ := e
    have hrest : Memory.above j rest := fun e he => h e (by simp [he])
    simp only [Memory.write]
    split
    · exact Memory.above_putCell b hj h
    · split
      · exact Memory.above_putCell b hj hrest
      · intro e he
        rcases List.mem_cons.1 he with rfl | he
        · exact h (k, c) (by simp)
        · exact ih hrest e he

/-- A write inside the image keeps the canonical form. -/
theorem Memory.wf_write {m : Memory} (hm : m.wf = true) {a : Nat} (b : Byte) (ha : a ≤ 0xFFF) :
    (m.write a b).wf = true := by
  induction m with
  | nil => exact Memory.wf_putCell b ha (by simp [Memory.above]) rfl
  | cons e rest ih =>
    obtain ⟨k, c⟩ := e
    obtain ⟨hk, hc, hab, hw⟩ := (Memory.wf_cons _ _ _).1 hm
    simp only [Memory.write]
    split
    · next hlt =>
      apply Memory.wf_putCell b ha _ hm
      intro e he
      rcases List.mem_cons.1 he with rfl | he
      · exact hlt
      · exact Nat.lt_trans hlt (hab e he)
    · split
      · next h => subst h; exact Memory.wf_putCell b ha hab hw
      · exact (Memory.wf_cons _ _ _).2 ⟨hk, hc, Memory.above_write b (by omega) hab, ih hw⟩

/-- A byte after a write, in a canonical memory. -/
theorem Memory.read_write {m : Memory} (hm : m.wf = true) (a a' : Nat) (b : Byte) :
    (m.write a b).read a' = if a' = a then b else m.read a' := by
  split
  · next h => rw [h, Memory.read_write_same hm]
  · next h => exact Memory.read_write_ne m a b h

theorem Memory.putCell_unlisted (a : Nat) (rest : Memory) : Memory.cons a (resetByte a) rest = rest := by
  simp [Memory.cons]

/-- Writing back the byte an address holds changes nothing. -/
theorem Memory.write_read {m : Memory} (hm : m.wf = true) (a : Nat) : m.write a (m.read a) = m := by
  induction m with
  | nil => exact Memory.putCell_unlisted a []
  | cons e rest ih =>
    obtain ⟨k, c⟩ := e
    rw [Memory.wf_cons] at hm
    simp only [Memory.write]
    by_cases h1 : a < k
    · rw [if_pos h1, Memory.read_cons, if_neg (by omega),
        Memory.read_of_above (Memory.above_mono (by omega) hm.2.2.1), Memory.putCell_unlisted]
    · rw [if_neg h1]
      by_cases h2 : a = k
      · subst h2; rw [if_pos rfl, Memory.read_cons, if_pos rfl, Memory.cons, if_neg hm.2.1]
      · rw [if_neg h2, Memory.read_cons, if_neg (Ne.symm h2), ih hm.2.2.2]

/-! ## Byte sequences -/

@[simp] theorem Memory.readBytes_length (m : Memory) (a n : Nat) : (m.readBytes a n).length = n := by
  induction n generalizing a with
  | zero => rfl
  | succ n ih => simp [Memory.readBytes, ih]

theorem Memory.readBytes_getElem (m : Memory) (a n j : Nat) (h : j < (m.readBytes a n).length) :
    (m.readBytes a n)[j] = m.read (a + j) := by
  induction n generalizing a j with
  | zero => simp [Memory.readBytes] at h
  | succ n ih =>
    cases j with
    | zero => simp [Memory.readBytes]
    | succ j =>
      simp only [Memory.readBytes, List.getElem_cons_succ]
      rw [ih]
      congr 1
      omega

/-- A sequence of writes leaves every address outside it alone. -/
theorem Memory.read_writeBytes_outside (m : Memory) (a : Nat) (bs : List Byte) {a' : Nat}
    (h : a' < a ∨ a + bs.length ≤ a') : (m.writeBytes a bs).read a' = m.read a' := by
  induction bs generalizing m a with
  | nil => rfl
  | cons b bs ih =>
    simp only [List.length_cons] at h
    simp only [Memory.writeBytes]
    rw [ih _ _ (by omega), Memory.read_write_ne _ _ _ (by omega)]

/-- A sequence of writes inside the image keeps the canonical form. -/
theorem Memory.wf_writeBytes {m : Memory} (hm : m.wf = true) {a : Nat} (bs : List Byte)
    (h : a + bs.length ≤ 0x1000) : (m.writeBytes a bs).wf = true := by
  induction bs generalizing m a with
  | nil => exact hm
  | cons b bs ih =>
    simp only [List.length_cons] at h
    exact ih (Memory.wf_write hm b (by omega)) (by omega)

/-- Inside a sequence of writes, each address reads as its own byte. -/
theorem Memory.read_writeBytes_inside {m : Memory} (hm : m.wf = true) {a : Nat} (bs : List Byte)
    (h : a + bs.length ≤ 0x1000) (j : Nat) (hj : j < bs.length) :
    (m.writeBytes a bs).read (a + j) = bs[j] := by
  induction bs generalizing m a j with
  | nil => simp at hj
  | cons b bs ih =>
    simp only [List.length_cons] at h hj
    simp only [Memory.writeBytes]
    cases j with
    | zero =>
      rw [Memory.read_writeBytes_outside _ _ _ (by omega)]
      simpa using Memory.read_write_same hm a b
    | succ j =>
      have := ih (a := a + 1) (Memory.wf_write hm b (by omega : a ≤ 0xFFF)) (by omega) j (by omega)
      simpa [Nat.add_assoc, Nat.add_comm 1 j] using this

/-! ## Bounds -/

@[simp] theorem rangeFault_zero (a : Nat) : rangeFault a 0 = none := by simp [rangeFault]

/-- The bound check passes exactly where the access stays inside the image, or is empty. -/
theorem rangeFault_eq_none_iff (a n : Nat) : rangeFault a n = none ↔ n = 0 ∨ a + n ≤ 0x1000 := by
  unfold rangeFault Config.lastAddr
  split
  · simp [*]
  · split <;> simp <;> omega

theorem rangeFault_of_le {a n : Nat} (h : a + n ≤ 0x1000) : rangeFault a n = none :=
  (rangeFault_eq_none_iff a n).2 (.inr h)

/-- Past the image, the fault is `MemoryOutOfRange` of the lowest offending address. -/
theorem rangeFault_past {a n : Nat} (hn : n ≠ 0) (h : 0x1000 < a + n) :
    rangeFault a n = some (.memoryOutOfRange (if a > 0xFFF then a else 0x1000)) := by
  unfold rangeFault Config.lastAddr
  rw [if_neg hn, if_pos (by omega)]

theorem loadBytes_of_le {m : Memory} {a n : Nat} (h : a + n ≤ 0x1000) :
    loadBytes m a n = .ok (m.readBytes a n) := by
  simp [loadBytes, rangeFault_of_le h]

theorem loadBytes_zero (m : Memory) (a : Nat) : loadBytes m a 0 = .ok [] := by
  simp [loadBytes, Memory.readBytes]

theorem loadBytes_past {m : Memory} {a n : Nat} (hn : n ≠ 0) (h : 0x1000 < a + n) :
    loadBytes m a n = .error (.memoryOutOfRange (if a > 0xFFF then a else 0x1000)) := by
  simp [loadBytes, rangeFault_past hn h]

/-- What a load can do. -/
theorem loadBytes_cases (m : Memory) (a n : Nat) :
    ((n = 0 ∨ a + n ≤ 0x1000) ∧ loadBytes m a n = .ok (m.readBytes a n)) ∨
    (n ≠ 0 ∧ 0x1000 < a + n ∧
      loadBytes m a n = .error (.memoryOutOfRange (if a > 0xFFF then a else 0x1000))) := by
  by_cases hn : n = 0
  · subst hn; exact .inl ⟨.inl rfl, by simp [loadBytes]⟩
  · by_cases h : a + n ≤ 0x1000
    · exact .inl ⟨.inr h, loadBytes_of_le h⟩
    · exact .inr ⟨hn, by omega, loadBytes_past hn (by omega)⟩

theorem storeBytes_of_le {m : Memory} {a : Nat} {bs : List Byte} (h : a + bs.length ≤ 0x1000) :
    storeBytes m a bs = .ok (m.writeBytes a bs) := by
  simp [storeBytes, rangeFault_of_le h]

theorem storeBytes_past {m : Memory} {a : Nat} {bs : List Byte} (hn : bs ≠ [])
    (h : 0x1000 < a + bs.length) :
    storeBytes m a bs = .error (.memoryOutOfRange (if a > 0xFFF then a else 0x1000)) := by
  have : bs.length ≠ 0 := by simpa using hn
  simp [storeBytes, rangeFault_past this h]

/-- What a store can do. -/
theorem storeBytes_cases (m : Memory) (a : Nat) (bs : List Byte) :
    ((bs = [] ∨ a + bs.length ≤ 0x1000) ∧ storeBytes m a bs = .ok (m.writeBytes a bs)) ∨
    (bs ≠ [] ∧ 0x1000 < a + bs.length ∧
      storeBytes m a bs = .error (.memoryOutOfRange (if a > 0xFFF then a else 0x1000))) := by
  by_cases hn : bs = []
  · subst hn; exact .inl ⟨.inl rfl, by simp [storeBytes]⟩
  · by_cases h : a + bs.length ≤ 0x1000
    · exact .inl ⟨.inr h, storeBytes_of_le h⟩
    · exact .inr ⟨hn, by omega, storeBytes_past hn (by omega)⟩

/-! ## Numbers and bytes -/

@[simp] theorem beBytes_length (n v : Nat) : (beBytes n v).length = n := by
  induction n with
  | zero => rfl
  | succ n ih => simp [beBytes, ih]

@[simp] theorem beNat_pair (hi lo : Byte) : beNat [hi, lo] = hi.toNat * 256 + lo.toNat := by
  simp [beNat]

@[simp] theorem beBytes_two (v : Nat) :
    beBytes 2 v = [BitVec.ofNat 8 (v / 256), BitVec.ofNat 8 v] := by
  simp [beBytes, Nat.shiftRight_eq_div_pow]

/-- Byte `j` of a value's big-endian bytes (20_memory.md R64). -/
theorem beBytes_getElem (n v j : Nat) (h : j < (beBytes n v).length) :
    (beBytes n v)[j] = BitVec.ofNat 8 (v >>> (8 * (n - 1 - j))) := by
  induction n generalizing j with
  | zero => simp [beBytes] at h
  | succ n ih =>
    cases j with
    | zero => simp [beBytes]
    | succ j => simp only [beBytes, List.getElem_cons_succ]; rw [ih]; congr 3; omega

theorem beNat_foldl (bs : List Byte) (a : Nat) :
    bs.foldl (fun acc b => acc * 256 + b.toNat) a = a * 256 ^ bs.length + beNat bs := by
  unfold beNat
  induction bs generalizing a with
  | nil => simp
  | cons b bs ih => simp only [List.foldl_cons, List.length_cons]; rw [ih, ih (0 * 256 + _)]; ring

/-- The bytes of a value spell the value, modulo their width (20_memory.md R66). -/
theorem beNat_beBytes (n v : Nat) : beNat (beBytes n v) = v % 256 ^ n := by
  induction n generalizing v with
  | zero => simp [beNat, beBytes, Nat.mod_one]
  | succ n ih =>
    have e : beNat (beBytes (n + 1) v) = (beBytes n v).foldl (fun acc b => acc * 256 + b.toNat)
        (0 * 256 + (BitVec.ofNat 8 (v >>> (8 * n))).toNat) := rfl
    rw [e, beNat_foldl, ih, beBytes_length]
    simp only [BitVec.toNat_ofNat, Nat.shiftRight_eq_div_pow, Nat.pow_mul, show (2 : Nat) ^ 8 = 256 from rfl,
      Nat.zero_mul, Nat.zero_add]
    rw [Nat.pow_succ, Nat.mod_mul, Nat.mul_comm, Nat.add_comm]

theorem beNat_lt (bs : List Byte) : beNat bs < 256 ^ bs.length := by
  induction bs with
  | nil => simp [beNat]
  | cons b bs ih =>
    have e : beNat (b :: bs) = bs.foldl (fun acc b => acc * 256 + b.toNat) (0 * 256 + b.toNat) := rfl
    have hb := b.isLt
    rw [e, beNat_foldl, List.length_cons, Nat.pow_succ]
    have : (0 * 256 + b.toNat) * 256 ^ bs.length ≤ 255 * 256 ^ bs.length := Nat.mul_le_mul_right _ (by omega)
    omega

/-- The value that bytes spell has those bytes (20_memory.md R63). -/
theorem beBytes_beNat (bs : List Byte) : beBytes bs.length (beNat bs) = bs := by
  induction bs with
  | nil => rfl
  | cons b bs ih =>
    have e : beNat (b :: bs) = bs.foldl (fun acc b => acc * 256 + b.toNat) (0 * 256 + b.toNat) := rfl
    have hlt := beNat_lt bs
    have hp : 0 < 256 ^ bs.length := Nat.pow_pos (by omega)
    rw [e, beNat_foldl, List.length_cons, beBytes]
    have low : ∀ (k v c : Nat), beBytes k (c * 256 ^ k + v) = beBytes k v := by
      intro k
      induction k with
      | zero => intro v c; rfl
      | succ k ihk =>
        intro v c
        simp only [beBytes, Nat.shiftRight_eq_div_pow, Nat.pow_mul, show (2 : Nat) ^ 8 = 256 from rfl]
        have hk : 0 < 256 ^ k := Nat.pow_pos (by omega)
        rw [Nat.pow_succ, show c * (256 ^ k * 256) + v = (c * 256) * 256 ^ k + v by ring, ihk,
          Nat.mul_comm (c * 256), Nat.mul_add_div hk]
        congr 1
        apply BitVec.eq_of_toNat_eq
        simp only [BitVec.toNat_ofNat]
        omega
    rw [low, ih]
    congr 1
    apply BitVec.eq_of_toNat_eq
    simp only [BitVec.toNat_ofNat, Nat.shiftRight_eq_div_pow, Nat.pow_mul, show (2 : Nat) ^ 8 = 256 from rfl]
    rw [Nat.mul_comm, Nat.mul_add_div hp, Nat.div_eq_of_lt hlt]
    have := b.isLt
    omega

theorem memRead_of_le {m : Memory} {a n : Nat} (h : a + n ≤ 0x1000) :
    memRead m a n = .ok (beNat (m.readBytes a n)) := by
  simp [memRead, loadBytes_of_le h]

theorem memRead_past {m : Memory} {a n : Nat} (hn : n ≠ 0) (h : 0x1000 < a + n) :
    memRead m a n = .error (.memoryOutOfRange (if a > 0xFFF then a else 0x1000)) := by
  simp [memRead, loadBytes_past hn h]

theorem memRead_two {m : Memory} {a : Nat} (h : a + 2 ≤ 0x1000) :
    memRead m a 2 = .ok ((m.read a).toNat * 256 + (m.read (a + 1)).toNat) := by
  rw [memRead_of_le h]
  simp [Memory.readBytes]

theorem memWrite_of_le {m : Memory} {a n v : Nat} (h : a + n ≤ 0x1000) :
    memWrite m a n v = .ok (m.writeBytes a (beBytes n v)) := by
  simp [memWrite, storeBytes_of_le (bs := beBytes n v) (by simpa using h)]

theorem memWrite_past {m : Memory} {a n v : Nat} (hn : n ≠ 0) (h : 0x1000 < a + n) :
    memWrite m a n v = .error (.memoryOutOfRange (if a > 0xFFF then a else 0x1000)) := by
  apply storeBytes_past
  · intro e; exact hn (by simpa using congrArg List.length e)
  · simpa using h

end Sys2Proof.Machine
end

