-- ==== Sys2Proof/Laws/Bits.lean ====
section
/-! SUPPORT. The laws of the bit windows (20_memory.md R67 to R70): what a bit write does to each bit of its
byte, of its window and of the framebuffer. -/

namespace Sys2Proof.Machine

/-- A bit of a byte after one bit of it was set. -/
theorem getLsbD_setBitOf (v : Byte) (k j : Nat) (b : Bool) (hk : k < 8) (hj : j < 8) :
    (setBitOf v k b).getLsbD j = if j = k then b else v.getLsbD j := by
  have key : ∀ k' : Fin 8, ∀ j' : Fin 8, ∀ b : Bool,
      ((0xFF : Byte) ^^^ ((1 : Byte) <<< k'.val)).getLsbD j'.val = decide (j' ≠ k') ∧
      ((if b then (1 : Byte) else 0) <<< k'.val).getLsbD j'.val = (decide (j' = k') && b) := by
    decide
  obtain ⟨h1, h2⟩ := key ⟨k, hk⟩ ⟨j, hj⟩ b
  simp only [ne_eq, Fin.mk.injEq] at h1 h2
  simp only [setBitOf, BitVec.getLsbD_or, BitVec.getLsbD_and, h1, h2]
  by_cases h : j = k <;> simp [h]

/-- Two bytes with the same eight bits are equal. -/
theorem byte_ext {v w : Byte} (h : ∀ k, k < 8 → v.getLsbD k = w.getLsbD k) : v = w :=
  BitVec.eq_of_getLsbD_eq h

/-- A bit write leaves every byte but its own alone. -/
theorem Memory.read_setBit_ne (m : Memory) (base i : Nat) (b : Bool) {a : Nat} (h : a ≠ base + i / 8) :
    (m.setBit base i b).read a = m.read a := Memory.read_write_ne _ _ _ h

/-- A bit write inside the image keeps the canonical form. -/
theorem Memory.wf_setBit {m : Memory} (hm : m.wf = true) {base i : Nat} (b : Bool)
    (h : base + i / 8 ≤ 0xFFF) : (m.setBit base i b).wf = true := Memory.wf_write hm _ h

/-- "A bit write changes only its own bit" (20_memory.md R67). -/
theorem Memory.bit_setBit {m : Memory} (hm : m.wf = true) (base i j : Nat) (b : Bool) :
    (m.setBit base i b).bit base j = if j = i then b else m.bit base j := by
  unfold Memory.bit Memory.setBit
  by_cases hbyte : base + j / 8 = base + i / 8
  · rw [hbyte, Memory.read_write_same hm,
      getLsbD_setBitOf _ _ _ _ (Nat.mod_lt _ (by omega)) (Nat.mod_lt _ (by omega))]
    have hiff : (j % 8 = i % 8) ↔ j = i := by omega
    by_cases h : j = i <;> simp [h, hiff]
  · rw [Memory.read_write_ne _ _ _ hbyte, if_neg]
    rintro rfl
    exact hbyte rfl

/-- Writing back the value a bit holds changes nothing. -/
theorem Memory.setBit_bit {m : Memory} (hm : m.wf = true) (base i : Nat) :
    m.setBit base i (m.bit base i) = m := by
  unfold Memory.setBit
  have : setBitOf (m.read (base + i / 8)) (i % 8) (m.bit base i) = m.read (base + i / 8) := by
    apply byte_ext
    intro k hk
    rw [getLsbD_setBitOf _ _ _ _ (Nat.mod_lt _ (by omega)) hk]
    split
    · next h => subst h; rfl
    · rfl
  rw [this, Memory.write_read hm]

/-- A pixel write leaves every byte outside the framebuffer alone. -/
theorem Memory.read_setPixel_outside (m : Memory) {px py : Nat} (hx : px < 64) (hy : py < 32) (b : Bool)
    {a : Nat} (h : a < 0xF00 ∨ 0x1000 ≤ a) : (m.setPixel px py b).read a = m.read a := by
  apply Memory.read_setBit_ne
  simp only [Config.fbBase]
  omega

/-- A pixel write keeps the canonical form. -/
theorem Memory.wf_setPixel {m : Memory} (hm : m.wf = true) {px py : Nat} (hx : px < 64) (hy : py < 32)
    (b : Bool) : (m.setPixel px py b).wf = true := by
  apply Memory.wf_setBit hm
  simp only [Config.fbBase]
  omega

/-- A pixel after a pixel write. -/
theorem Memory.pixel_setPixel {m : Memory} (hm : m.wf = true) {px qx : Nat} (py qy : Nat)
    (hx : px < 64) (hx' : qx < 64) (b : Bool) :
    (m.setPixel px py b).pixel qx qy = if qx = px ∧ qy = py then b else m.pixel qx qy := by
  unfold Memory.pixel Memory.setPixel
  rw [Memory.bit_setBit hm]
  have hiff : (qy * 64 + qx = py * 64 + px) ↔ (qx = px ∧ qy = py) := by omega
  simp only [hiff]

end Sys2Proof.Machine
end

