-- ==== Sys2Proof/Laws/PerInstr.lean ====
section
/-! SUPPORT. Statements about every instruction as syntax, one lemma per constructor. Family EncodingRow: the
word of an instruction matches the instruction's own row of the opcode map (30_encoding.md R103). -/

namespace Sys2Proof.Laws.EncodingRow

/-- `encode i & mask = pattern` for the row of `i` (30_encoding.md R103). -/
def Statement (i : Instr) : Prop := (opcodeRow i).matchesWord (encode i) = true

/-! ## The masks on the three word formats -/

theorem nibble_and_ones (g : BitVec 4) : g &&& 0xF#4 = g := BitVec.and_allOnes

theorem byte_and_ones (b : Byte) : b &&& 0xFF#8 = b := BitVec.and_allOnes

theorem wordGNNN_and (g : BitVec 4) (nnn : Addr12) : wordGNNN g nnn &&& 0xF000 = wordGNNN g 0 := by
  have h : (0xF000 : Word) = (0xF#4 ++ 0x000#12 : BitVec (4 + 12)) := by decide
  rw [h]
  unfold wordGNNN
  rw [BitVec.and_append]
  simp [nibble_and_ones]

theorem wordGXNN_and_F000 (g : BitVec 4) (x : Reg) (nn : Byte) :
    wordGXNN g x nn &&& 0xF000 = wordGXNN g 0 0 := by
  have h : (0xF000 : Word) = (0xF#4 ++ 0x0#4 ++ 0x00#8 : BitVec (4 + 4 + 8)) := by decide
  rw [h]
  unfold wordGXNN
  rw [BitVec.and_append, BitVec.and_append]
  simp [nibble_and_ones, nibbleOf]

theorem wordGXNN_and_F0FF (g : BitVec 4) (x : Reg) (nn : Byte) :
    wordGXNN g x nn &&& 0xF0FF = wordGXNN g 0 nn := by
  have h : (0xF0FF : Word) = (0xF#4 ++ 0x0#4 ++ 0xFF#8 : BitVec (4 + 4 + 8)) := by decide
  rw [h]
  unfold wordGXNN
  rw [BitVec.and_append, BitVec.and_append]
  simp [nibble_and_ones, byte_and_ones, nibbleOf]

theorem wordGXYN_and_F000 (g x y n : BitVec 4) : wordGXYN g x y n &&& 0xF000 = wordGXYN g 0 0 0 := by
  have h : (0xF000 : Word) = (0xF#4 ++ 0x0#4 ++ 0x0#4 ++ 0x0#4 : BitVec (4 + 4 + 4 + 4)) := by decide
  rw [h]
  unfold wordGXYN
  rw [BitVec.and_append, BitVec.and_append, BitVec.and_append]
  simp [nibble_and_ones]

theorem wordGXYN_and_F00F (g x y n : BitVec 4) : wordGXYN g x y n &&& 0xF00F = wordGXYN g 0 0 n := by
  have h : (0xF00F : Word) = (0xF#4 ++ 0x0#4 ++ 0x0#4 ++ 0xF#4 : BitVec (4 + 4 + 4 + 4)) := by decide
  rw [h]
  unfold wordGXYN
  rw [BitVec.and_append, BitVec.and_append, BitVec.and_append]
  simp [nibble_and_ones]

theorem matchesWord_of_eq {r : OpcodeRow} {w : Word} (h : w &&& r.mask = r.pattern) :
    r.matchesWord w = true := by
  simp [OpcodeRow.matchesWord, h]

/-! ## One lemma per constructor -/

theorem cls : Statement .cls := matchesWord_of_eq (by decide)

theorem ret : Statement .ret := matchesWord_of_eq (by decide)

theorem jp (nnn : Addr12) : Statement (.jp nnn) := matchesWord_of_eq (wordGNNN_and _ _)

theorem call (nnn : Addr12) : Statement (.call nnn) := matchesWord_of_eq (wordGNNN_and _ _)

theorem seImm (x : Reg) (nn : Byte) : Statement (.seImm x nn) := matchesWord_of_eq (wordGXNN_and_F000 _ _ _)

theorem sneImm (x : Reg) (nn : Byte) : Statement (.sneImm x nn) := matchesWord_of_eq (wordGXNN_and_F000 _ _ _)

theorem seReg (x : Reg) (y : Reg) : Statement (.seReg x y) := matchesWord_of_eq (wordGXYN_and_F00F _ _ _ _)

theorem ldImm (x : Reg) (nn : Byte) : Statement (.ldImm x nn) := matchesWord_of_eq (wordGXNN_and_F000 _ _ _)

theorem addImm (x : Reg) (nn : Byte) : Statement (.addImm x nn) := matchesWord_of_eq (wordGXNN_and_F000 _ _ _)

theorem ldReg (x : Reg) (y : Reg) : Statement (.ldReg x y) := matchesWord_of_eq (wordGXYN_and_F00F _ _ _ _)

theorem or (x : Reg) (y : Reg) : Statement (.or x y) := matchesWord_of_eq (wordGXYN_and_F00F _ _ _ _)

theorem and (x : Reg) (y : Reg) : Statement (.and x y) := matchesWord_of_eq (wordGXYN_and_F00F _ _ _ _)

theorem xor (x : Reg) (y : Reg) : Statement (.xor x y) := matchesWord_of_eq (wordGXYN_and_F00F _ _ _ _)

theorem addReg (x : Reg) (y : Reg) : Statement (.addReg x y) := matchesWord_of_eq (wordGXYN_and_F00F _ _ _ _)

theorem sub (x : Reg) (y : Reg) : Statement (.sub x y) := matchesWord_of_eq (wordGXYN_and_F00F _ _ _ _)

theorem shr (x : Reg) (y : Reg) : Statement (.shr x y) := matchesWord_of_eq (wordGXYN_and_F00F _ _ _ _)

theorem subn (x : Reg) (y : Reg) : Statement (.subn x y) := matchesWord_of_eq (wordGXYN_and_F00F _ _ _ _)

theorem shl (x : Reg) : Statement (.shl x) := matchesWord_of_eq (wordGXYN_and_F00F _ _ _ _)

theorem sneReg (x : Reg) (y : Reg) : Statement (.sneReg x y) := matchesWord_of_eq (wordGXYN_and_F00F _ _ _ _)

theorem ldI (nnn : Addr12) : Statement (.ldI nnn) := matchesWord_of_eq (wordGNNN_and _ _)

theorem jpV0 (nnn : Addr12) : Statement (.jpV0 nnn) := matchesWord_of_eq (wordGNNN_and _ _)

theorem rnd (x : Reg) (nn : Byte) : Statement (.rnd x nn) := matchesWord_of_eq (wordGXNN_and_F000 _ _ _)

theorem drw (x : Reg) (y : Reg) (n : Nat) : Statement (.drw x y n) := matchesWord_of_eq (wordGXYN_and_F000 _ _ _ _)

theorem skp (x : Reg) : Statement (.skp x) := matchesWord_of_eq (wordGXNN_and_F0FF _ _ _)

theorem sknp (x : Reg) : Statement (.sknp x) := matchesWord_of_eq (wordGXNN_and_F0FF _ _ _)

theorem ldFromDt (x : Reg) : Statement (.ldFromDt x) := matchesWord_of_eq (wordGXNN_and_F0FF _ _ _)

theorem ldKey (x : Reg) : Statement (.ldKey x) := matchesWord_of_eq (wordGXNN_and_F0FF _ _ _)

theorem ldToDt (x : Reg) : Statement (.ldToDt x) := matchesWord_of_eq (wordGXNN_and_F0FF _ _ _)

theorem ldToSt (x : Reg) : Statement (.ldToSt x) := matchesWord_of_eq (wordGXNN_and_F0FF _ _ _)

theorem addI (x : Reg) : Statement (.addI x) := matchesWord_of_eq (wordGXNN_and_F0FF _ _ _)

theorem ldFont (x : Reg) : Statement (.ldFont x) := matchesWord_of_eq (wordGXNN_and_F0FF _ _ _)

theorem ldBcd (x : Reg) : Statement (.ldBcd x) := matchesWord_of_eq (wordGXNN_and_F0FF _ _ _)

theorem store (x : Reg) : Statement (.store x) := matchesWord_of_eq (wordGXNN_and_F0FF _ _ _)

theorem load (x : Reg) : Statement (.load x) := matchesWord_of_eq (wordGXNN_and_F0FF _ _ _)

end Sys2Proof.Laws.EncodingRow
end

