-- ==== Sys2Proof/Laws/Decode.lean ====
section
/-! SUPPORT. The fields of a word as numbers, the fields of the words the encoder builds, and the fields that a
mask of the opcode map fixes. -/

namespace Sys2Proof

/-! ## Fields as numbers (30_encoding.md R91) -/

theorem fieldG_val (w : Word) : (fieldG w).val = w.toNat / 4096 := by
  have := w.isLt
  simp only [fieldG, BitVec.extractLsb'_toNat, Nat.shiftRight_eq_div_pow]
  omega

theorem fieldX_val (w : Word) : (fieldX w).val = w.toNat / 256 % 16 := by
  simp only [fieldX, BitVec.extractLsb'_toNat, Nat.shiftRight_eq_div_pow]

theorem fieldY_val (w : Word) : (fieldY w).val = w.toNat / 16 % 16 := by
  simp only [fieldY, BitVec.extractLsb'_toNat, Nat.shiftRight_eq_div_pow]

theorem fieldN_eq (w : Word) : fieldN w = w.toNat % 16 := by
  simp [fieldN, BitVec.extractLsb'_toNat]

theorem fieldNN_toNat (w : Word) : (fieldNN w).toNat = w.toNat % 256 := by
  simp [fieldNN, BitVec.extractLsb'_toNat]

theorem fieldNNN_toNat (w : Word) : (fieldNNN w).toNat = w.toNat % 4096 := by
  simp [fieldNNN, BitVec.extractLsb'_toNat]

/-! ## The words the encoder builds -/

theorem nibbleOf_toNat (r : Reg) : (nibbleOf r).toNat = r.val := by
  simp [nibbleOf]

theorem append_toNat {n m : Nat} (x : BitVec n) (y : BitVec m) :
    (x ++ y).toNat = x.toNat * 2 ^ m + y.toNat := by
  rw [BitVec.toNat_append, ← Nat.shiftLeft_add_eq_or_of_lt y.isLt, Nat.shiftLeft_eq]

theorem wordGNNN_toNat (g : BitVec 4) (nnn : Addr12) :
    (wordGNNN g nnn).toNat = g.toNat * 4096 + nnn.toNat := by
  unfold wordGNNN
  rw [append_toNat]
  norm_num

theorem wordGXNN_toNat (g : BitVec 4) (x : Reg) (nn : Byte) :
    (wordGXNN g x nn).toNat = g.toNat * 4096 + x.val * 256 + nn.toNat := by
  unfold wordGXNN
  rw [append_toNat, append_toNat, nibbleOf_toNat]
  omega

theorem wordGXYN_toNat (g x y n : BitVec 4) :
    (wordGXYN g x y n).toNat = g.toNat * 4096 + x.toNat * 256 + y.toNat * 16 + n.toNat := by
  unfold wordGXYN
  rw [append_toNat, append_toNat, append_toNat]
  omega

theorem fieldG_wordGNNN (g : BitVec 4) (nnn : Addr12) : (fieldG (wordGNNN g nnn)).val = g.toNat := by
  rw [fieldG_val, wordGNNN_toNat]
  have := nnn.isLt
  omega

theorem fieldNNN_wordGNNN (g : BitVec 4) (nnn : Addr12) : fieldNNN (wordGNNN g nnn) = nnn := by
  apply BitVec.eq_of_toNat_eq
  rw [fieldNNN_toNat, wordGNNN_toNat]
  have := nnn.isLt
  omega

theorem fieldG_wordGXNN (g : BitVec 4) (x : Reg) (nn : Byte) :
    (fieldG (wordGXNN g x nn)).val = g.toNat := by
  rw [fieldG_val, wordGXNN_toNat]
  have := nn.isLt
  omega

theorem fieldX_wordGXNN (g : BitVec 4) (x : Reg) (nn : Byte) : fieldX (wordGXNN g x nn) = x := by
  apply Fin.ext
  rw [fieldX_val, wordGXNN_toNat]
  have := nn.isLt
  omega

theorem fieldNN_wordGXNN (g : BitVec 4) (x : Reg) (nn : Byte) : fieldNN (wordGXNN g x nn) = nn := by
  apply BitVec.eq_of_toNat_eq
  rw [fieldNN_toNat, wordGXNN_toNat]
  have := nn.isLt
  omega

theorem fieldG_wordGXYN (g x y n : BitVec 4) : (fieldG (wordGXYN g x y n)).val = g.toNat := by
  rw [fieldG_val, wordGXYN_toNat]
  have := x.isLt
  have := y.isLt
  have := n.isLt
  omega

theorem fieldX_wordGXYN (g : BitVec 4) (x : Reg) (y n : BitVec 4) :
    fieldX (wordGXYN g (nibbleOf x) y n) = x := by
  apply Fin.ext
  rw [fieldX_val, wordGXYN_toNat, nibbleOf_toNat]
  have := y.isLt
  have := n.isLt
  omega

theorem fieldY_wordGXYN (g x : BitVec 4) (y : Reg) (n : BitVec 4) :
    fieldY (wordGXYN g x (nibbleOf y) n) = y := by
  apply Fin.ext
  rw [fieldY_val, wordGXYN_toNat, nibbleOf_toNat]
  have := n.isLt
  omega

theorem fieldN_wordGXYN (g x y n : BitVec 4) : fieldN (wordGXYN g x y n) = n.toNat := by
  rw [fieldN_eq, wordGXYN_toNat]
  have := n.isLt
  omega

/-! ## What a mask of the opcode map fixes -/

theorem fieldG_and_F000 (w : Word) : fieldG (w &&& 0xF000) = fieldG w := by
  have h : (w &&& 0xF000).extractLsb' 12 4 = w.extractLsb' 12 4 := by
    rw [BitVec.extractLsb'_and, show (0xF000 : Word).extractLsb' 12 4 = 0xF#4 by decide]
    exact Laws.EncodingRow.nibble_and_ones _
  simp only [fieldG, h]

theorem fieldG_and_F0FF (w : Word) : fieldG (w &&& 0xF0FF) = fieldG w := by
  have h : (w &&& 0xF0FF).extractLsb' 12 4 = w.extractLsb' 12 4 := by
    rw [BitVec.extractLsb'_and, show (0xF0FF : Word).extractLsb' 12 4 = 0xF#4 by decide]
    exact Laws.EncodingRow.nibble_and_ones _
  simp only [fieldG, h]

theorem fieldG_and_F00F (w : Word) : fieldG (w &&& 0xF00F) = fieldG w := by
  have h : (w &&& 0xF00F).extractLsb' 12 4 = w.extractLsb' 12 4 := by
    rw [BitVec.extractLsb'_and, show (0xF00F : Word).extractLsb' 12 4 = 0xF#4 by decide]
    exact Laws.EncodingRow.nibble_and_ones _
  simp only [fieldG, h]

theorem fieldNN_and_F0FF (w : Word) : fieldNN (w &&& 0xF0FF) = fieldNN w := by
  unfold fieldNN
  rw [BitVec.extractLsb'_and, show (0xF0FF : Word).extractLsb' 0 8 = 0xFF#8 by decide]
  exact Laws.EncodingRow.byte_and_ones _

theorem fieldN_and_F00F (w : Word) : fieldN (w &&& 0xF00F) = fieldN w := by
  unfold fieldN
  rw [BitVec.extractLsb'_and, show (0xF00F : Word).extractLsb' 0 4 = 0xF#4 by decide,
    Laws.EncodingRow.nibble_and_ones]

/-- A word that matches a pattern under 0xF000 has the pattern's group. -/
theorem fieldG_of_match_F000 {w p : Word} (h : w &&& 0xF000 = p) : fieldG w = fieldG p := by
  rw [← h, fieldG_and_F000]

/-- A word that matches a pattern under 0xF0FF has the pattern's group and NN. -/
theorem fields_of_match_F0FF {w p : Word} (h : w &&& 0xF0FF = p) :
    fieldG w = fieldG p ∧ fieldNN w = fieldNN p := by
  rw [← h, fieldG_and_F0FF, fieldNN_and_F0FF]
  exact ⟨rfl, rfl⟩

/-- A word that matches a pattern under 0xF00F has the pattern's group and N. -/
theorem fields_of_match_F00F {w p : Word} (h : w &&& 0xF00F = p) :
    fieldG w = fieldG p ∧ fieldN w = fieldN p := by
  rw [← h, fieldG_and_F00F, fieldN_and_F00F]
  exact ⟨rfl, rfl⟩

/-! ## One arm of the decoder per group (30_encoding.md R94, R100) -/

theorem decode_of_group0 {w : Word} (h : fieldG w = 0x0) : decode w = decodeGroup0 w := by
  unfold decode; rw [h]; rfl
theorem decode_of_group1 {w : Word} (h : fieldG w = 0x1) : decode w = .ok (.jp (fieldNNN w)) := by
  unfold decode; rw [h]; rfl
theorem decode_of_group2 {w : Word} (h : fieldG w = 0x2) : decode w = .ok (.call (fieldNNN w)) := by
  unfold decode; rw [h]; rfl
theorem decode_of_group3 {w : Word} (h : fieldG w = 0x3) : decode w = .ok (.seImm (fieldX w) (fieldNN w)) := by
  unfold decode; rw [h]; rfl
theorem decode_of_group4 {w : Word} (h : fieldG w = 0x4) : decode w = .ok (.sneImm (fieldX w) (fieldNN w)) := by
  unfold decode; rw [h]; rfl
theorem decode_of_group5 {w : Word} (h : fieldG w = 0x5) : decode w = decodeGroup5 w := by
  unfold decode; rw [h]; rfl
theorem decode_of_group6 {w : Word} (h : fieldG w = 0x6) : decode w = .ok (.ldImm (fieldX w) (fieldNN w)) := by
  unfold decode; rw [h]; rfl
theorem decode_of_group7 {w : Word} (h : fieldG w = 0x7) : decode w = .ok (.addImm (fieldX w) (fieldNN w)) := by
  unfold decode; rw [h]; rfl
theorem decode_of_group8 {w : Word} (h : fieldG w = 0x8) : decode w = decodeGroup8 w := by
  unfold decode; rw [h]; rfl
theorem decode_of_group9 {w : Word} (h : fieldG w = 0x9) : decode w = decodeGroup9 w := by
  unfold decode; rw [h]; rfl
theorem decode_of_groupA {w : Word} (h : fieldG w = 0xA) : decode w = .ok (.ldI (fieldNNN w)) := by
  unfold decode; rw [h]; rfl
theorem decode_of_groupB {w : Word} (h : fieldG w = 0xB) : decode w = .ok (.jpV0 (fieldNNN w)) := by
  unfold decode; rw [h]; rfl
theorem decode_of_groupC {w : Word} (h : fieldG w = 0xC) : decode w = .ok (.rnd (fieldX w) (fieldNN w)) := by
  unfold decode; rw [h]; rfl
theorem decode_of_groupD {w : Word} (h : fieldG w = 0xD) : decode w = .ok (.drw (fieldX w) (fieldY w) (fieldN w)) := by
  unfold decode; rw [h]; rfl
theorem decode_of_groupE {w : Word} (h : fieldG w = 0xE) : decode w = decodeGroupE w := by
  unfold decode; rw [h]; rfl
theorem decode_of_groupF {w : Word} (h : fieldG w = 0xF) : decode w = decodeGroupF w := by
  unfold decode; rw [h]; rfl

/-- The group of an encoded word. -/
theorem group_wordGNNN {g : BitVec 4} {k : Fin 16} (nnn : Addr12) (e : g.toNat = k.val) :
    fieldG (wordGNNN g nnn) = k := Fin.ext ((fieldG_wordGNNN g nnn).trans e)

theorem group_wordGXNN {g : BitVec 4} {k : Fin 16} (x : Reg) (nn : Byte) (e : g.toNat = k.val) :
    fieldG (wordGXNN g x nn) = k := Fin.ext ((fieldG_wordGXNN g x nn).trans e)

theorem group_wordGXYN {g : BitVec 4} {k : Fin 16} (x y n : BitVec 4) (e : g.toNat = k.val) :
    fieldG (wordGXYN g x y n) = k := Fin.ext ((fieldG_wordGXYN g x y n).trans e)

/-- A word is the join of its two bytes, the high byte first (30_encoding.md R90). -/
theorem wordOf_extract (w : Word) : wordOf (w.extractLsb' 8 8) (w.extractLsb' 0 8) = w := by
  apply BitVec.eq_of_toNat_eq
  have := w.isLt
  simp only [wordOf, append_toNat, BitVec.extractLsb'_toNat, Nat.shiftRight_eq_div_pow]
  omega

end Sys2Proof
end

