-- ==== Sys2Proof/Laws/State.lean ====
section
/-! SUPPORT. What each named update of State does to each field, true by unfolding once, so that no later proof
unfolds a record update. -/

namespace Sys2Proof.Machine

/-! ## setPc -/

@[simp] theorem State.setPc_mem (s : State) (v : Word) : (s.setPc v).mem = s.mem := rfl
@[simp] theorem State.setPc_regs (s : State) (v : Word) : (s.setPc v).regs = s.regs := rfl
@[simp] theorem State.setPc_iReg (s : State) (v : Word) : (s.setPc v).iReg = s.iReg := rfl
@[simp] theorem State.setPc_pc (s : State) (v : Word) : (s.setPc v).pc = v := rfl
@[simp] theorem State.setPc_sp (s : State) (v : Word) : (s.setPc v).sp = s.sp := rfl
@[simp] theorem State.setPc_dt (s : State) (v : Word) : (s.setPc v).dt = s.dt := rfl
@[simp] theorem State.setPc_st (s : State) (v : Word) : (s.setPc v).st = s.st := rfl
@[simp] theorem State.setPc_redraw (s : State) (v : Word) : (s.setPc v).redraw = s.redraw := rfl
@[simp] theorem State.setPc_fault (s : State) (v : Word) : (s.setPc v).fault = s.fault := rfl
@[simp] theorem State.setPc_params (s : State) (v : Word) : (s.setPc v).params = s.params := rfl
@[simp] theorem State.setPc_draws (s : State) (v : Word) : (s.setPc v).draws = s.draws := rfl
@[simp] theorem State.setPc_reg (s : State) (v : Word) (r : Reg) : (s.setPc v).reg r = s.reg r := rfl

/-! ## setI -/

@[simp] theorem State.setI_mem (s : State) (v : Word) : (s.setI v).mem = s.mem := rfl
@[simp] theorem State.setI_regs (s : State) (v : Word) : (s.setI v).regs = s.regs := rfl
@[simp] theorem State.setI_iReg (s : State) (v : Word) : (s.setI v).iReg = v := rfl
@[simp] theorem State.setI_pc (s : State) (v : Word) : (s.setI v).pc = s.pc := rfl
@[simp] theorem State.setI_sp (s : State) (v : Word) : (s.setI v).sp = s.sp := rfl
@[simp] theorem State.setI_dt (s : State) (v : Word) : (s.setI v).dt = s.dt := rfl
@[simp] theorem State.setI_st (s : State) (v : Word) : (s.setI v).st = s.st := rfl
@[simp] theorem State.setI_redraw (s : State) (v : Word) : (s.setI v).redraw = s.redraw := rfl
@[simp] theorem State.setI_fault (s : State) (v : Word) : (s.setI v).fault = s.fault := rfl
@[simp] theorem State.setI_params (s : State) (v : Word) : (s.setI v).params = s.params := rfl
@[simp] theorem State.setI_draws (s : State) (v : Word) : (s.setI v).draws = s.draws := rfl
@[simp] theorem State.setI_reg (s : State) (v : Word) (r : Reg) : (s.setI v).reg r = s.reg r := rfl

/-! ## setSp -/

@[simp] theorem State.setSp_mem (s : State) (v : Word) : (s.setSp v).mem = s.mem := rfl
@[simp] theorem State.setSp_regs (s : State) (v : Word) : (s.setSp v).regs = s.regs := rfl
@[simp] theorem State.setSp_iReg (s : State) (v : Word) : (s.setSp v).iReg = s.iReg := rfl
@[simp] theorem State.setSp_pc (s : State) (v : Word) : (s.setSp v).pc = s.pc := rfl
@[simp] theorem State.setSp_sp (s : State) (v : Word) : (s.setSp v).sp = v := rfl
@[simp] theorem State.setSp_dt (s : State) (v : Word) : (s.setSp v).dt = s.dt := rfl
@[simp] theorem State.setSp_st (s : State) (v : Word) : (s.setSp v).st = s.st := rfl
@[simp] theorem State.setSp_redraw (s : State) (v : Word) : (s.setSp v).redraw = s.redraw := rfl
@[simp] theorem State.setSp_fault (s : State) (v : Word) : (s.setSp v).fault = s.fault := rfl
@[simp] theorem State.setSp_params (s : State) (v : Word) : (s.setSp v).params = s.params := rfl
@[simp] theorem State.setSp_draws (s : State) (v : Word) : (s.setSp v).draws = s.draws := rfl
@[simp] theorem State.setSp_reg (s : State) (v : Word) (r : Reg) : (s.setSp v).reg r = s.reg r := rfl

/-! ## setDt -/

@[simp] theorem State.setDt_mem (s : State) (v : Byte) : (s.setDt v).mem = s.mem := rfl
@[simp] theorem State.setDt_regs (s : State) (v : Byte) : (s.setDt v).regs = s.regs := rfl
@[simp] theorem State.setDt_iReg (s : State) (v : Byte) : (s.setDt v).iReg = s.iReg := rfl
@[simp] theorem State.setDt_pc (s : State) (v : Byte) : (s.setDt v).pc = s.pc := rfl
@[simp] theorem State.setDt_sp (s : State) (v : Byte) : (s.setDt v).sp = s.sp := rfl
@[simp] theorem State.setDt_dt (s : State) (v : Byte) : (s.setDt v).dt = v := rfl
@[simp] theorem State.setDt_st (s : State) (v : Byte) : (s.setDt v).st = s.st := rfl
@[simp] theorem State.setDt_redraw (s : State) (v : Byte) : (s.setDt v).redraw = s.redraw := rfl
@[simp] theorem State.setDt_fault (s : State) (v : Byte) : (s.setDt v).fault = s.fault := rfl
@[simp] theorem State.setDt_params (s : State) (v : Byte) : (s.setDt v).params = s.params := rfl
@[simp] theorem State.setDt_draws (s : State) (v : Byte) : (s.setDt v).draws = s.draws := rfl
@[simp] theorem State.setDt_reg (s : State) (v : Byte) (r : Reg) : (s.setDt v).reg r = s.reg r := rfl

/-! ## setSt -/

@[simp] theorem State.setSt_mem (s : State) (v : Byte) : (s.setSt v).mem = s.mem := rfl
@[simp] theorem State.setSt_regs (s : State) (v : Byte) : (s.setSt v).regs = s.regs := rfl
@[simp] theorem State.setSt_iReg (s : State) (v : Byte) : (s.setSt v).iReg = s.iReg := rfl
@[simp] theorem State.setSt_pc (s : State) (v : Byte) : (s.setSt v).pc = s.pc := rfl
@[simp] theorem State.setSt_sp (s : State) (v : Byte) : (s.setSt v).sp = s.sp := rfl
@[simp] theorem State.setSt_dt (s : State) (v : Byte) : (s.setSt v).dt = s.dt := rfl
@[simp] theorem State.setSt_st (s : State) (v : Byte) : (s.setSt v).st = v := rfl
@[simp] theorem State.setSt_redraw (s : State) (v : Byte) : (s.setSt v).redraw = s.redraw := rfl
@[simp] theorem State.setSt_fault (s : State) (v : Byte) : (s.setSt v).fault = s.fault := rfl
@[simp] theorem State.setSt_params (s : State) (v : Byte) : (s.setSt v).params = s.params := rfl
@[simp] theorem State.setSt_draws (s : State) (v : Byte) : (s.setSt v).draws = s.draws := rfl
@[simp] theorem State.setSt_reg (s : State) (v : Byte) (r : Reg) : (s.setSt v).reg r = s.reg r := rfl

/-! ## setRedraw -/

@[simp] theorem State.setRedraw_mem (s : State) (b : Bool) : (s.setRedraw b).mem = s.mem := rfl
@[simp] theorem State.setRedraw_regs (s : State) (b : Bool) : (s.setRedraw b).regs = s.regs := rfl
@[simp] theorem State.setRedraw_iReg (s : State) (b : Bool) : (s.setRedraw b).iReg = s.iReg := rfl
@[simp] theorem State.setRedraw_pc (s : State) (b : Bool) : (s.setRedraw b).pc = s.pc := rfl
@[simp] theorem State.setRedraw_sp (s : State) (b : Bool) : (s.setRedraw b).sp = s.sp := rfl
@[simp] theorem State.setRedraw_dt (s : State) (b : Bool) : (s.setRedraw b).dt = s.dt := rfl
@[simp] theorem State.setRedraw_st (s : State) (b : Bool) : (s.setRedraw b).st = s.st := rfl
@[simp] theorem State.setRedraw_redraw (s : State) (b : Bool) : (s.setRedraw b).redraw = b := rfl
@[simp] theorem State.setRedraw_fault (s : State) (b : Bool) : (s.setRedraw b).fault = s.fault := rfl
@[simp] theorem State.setRedraw_params (s : State) (b : Bool) : (s.setRedraw b).params = s.params := rfl
@[simp] theorem State.setRedraw_draws (s : State) (b : Bool) : (s.setRedraw b).draws = s.draws := rfl
@[simp] theorem State.setRedraw_reg (s : State) (b : Bool) (r : Reg) : (s.setRedraw b).reg r = s.reg r := rfl

/-! ## setMem -/

@[simp] theorem State.setMem_mem (s : State) (m : Memory) : (s.setMem m).mem = m := rfl
@[simp] theorem State.setMem_regs (s : State) (m : Memory) : (s.setMem m).regs = s.regs := rfl
@[simp] theorem State.setMem_iReg (s : State) (m : Memory) : (s.setMem m).iReg = s.iReg := rfl
@[simp] theorem State.setMem_pc (s : State) (m : Memory) : (s.setMem m).pc = s.pc := rfl
@[simp] theorem State.setMem_sp (s : State) (m : Memory) : (s.setMem m).sp = s.sp := rfl
@[simp] theorem State.setMem_dt (s : State) (m : Memory) : (s.setMem m).dt = s.dt := rfl
@[simp] theorem State.setMem_st (s : State) (m : Memory) : (s.setMem m).st = s.st := rfl
@[simp] theorem State.setMem_redraw (s : State) (m : Memory) : (s.setMem m).redraw = s.redraw := rfl
@[simp] theorem State.setMem_fault (s : State) (m : Memory) : (s.setMem m).fault = s.fault := rfl
@[simp] theorem State.setMem_params (s : State) (m : Memory) : (s.setMem m).params = s.params := rfl
@[simp] theorem State.setMem_draws (s : State) (m : Memory) : (s.setMem m).draws = s.draws := rfl
@[simp] theorem State.setMem_reg (s : State) (m : Memory) (r : Reg) : (s.setMem m).reg r = s.reg r := rfl

/-! ## setReg -/

@[simp] theorem State.setReg_mem (s : State) (r : Reg) (v : Byte) : (s.setReg r v).mem = s.mem := rfl
@[simp] theorem State.setReg_iReg (s : State) (r : Reg) (v : Byte) : (s.setReg r v).iReg = s.iReg := rfl
@[simp] theorem State.setReg_pc (s : State) (r : Reg) (v : Byte) : (s.setReg r v).pc = s.pc := rfl
@[simp] theorem State.setReg_sp (s : State) (r : Reg) (v : Byte) : (s.setReg r v).sp = s.sp := rfl
@[simp] theorem State.setReg_dt (s : State) (r : Reg) (v : Byte) : (s.setReg r v).dt = s.dt := rfl
@[simp] theorem State.setReg_st (s : State) (r : Reg) (v : Byte) : (s.setReg r v).st = s.st := rfl
@[simp] theorem State.setReg_redraw (s : State) (r : Reg) (v : Byte) : (s.setReg r v).redraw = s.redraw := rfl
@[simp] theorem State.setReg_fault (s : State) (r : Reg) (v : Byte) : (s.setReg r v).fault = s.fault := rfl
@[simp] theorem State.setReg_params (s : State) (r : Reg) (v : Byte) : (s.setReg r v).params = s.params := rfl
@[simp] theorem State.setReg_draws (s : State) (r : Reg) (v : Byte) : (s.setReg r v).draws = s.draws := rfl

@[simp] theorem State.setReg_reg_same (s : State) (r : Reg) (v : Byte) : (s.setReg r v).reg r = v := by
  simp [State.setReg, State.reg]

theorem State.setReg_reg_ne (s : State) (r q : Reg) (v : Byte) (h : q ≠ r) :
    (s.setReg r v).reg q = s.reg q := by
  have h' : r.val ≠ q.val := fun e => h (Fin.ext e.symm)
  simp [State.setReg, State.reg, Vector.getElem_set_ne _ _ h']

/-- A register after a write: the value written, or what it held. -/
theorem State.setReg_reg (s : State) (r q : Reg) (v : Byte) :
    (s.setReg r v).reg q = if q = r then v else s.reg q := by
  split
  · next h => rw [h, State.setReg_reg_same]
  · next h => exact State.setReg_reg_ne s r q v h

/-- Two states with the same registers, read one by one, have the same register file. -/
theorem State.regs_ext {s t : State} (h : ∀ r, t.reg r = s.reg r) : t.regs = s.regs := by
  apply Vector.ext
  intro i hi
  exact h ⟨i, hi⟩

/-! ## countDraw -/

@[simp] theorem State.countDraw_mem (s : State) : s.countDraw.mem = s.mem := rfl
@[simp] theorem State.countDraw_regs (s : State) : s.countDraw.regs = s.regs := rfl
@[simp] theorem State.countDraw_iReg (s : State) : s.countDraw.iReg = s.iReg := rfl
@[simp] theorem State.countDraw_pc (s : State) : s.countDraw.pc = s.pc := rfl
@[simp] theorem State.countDraw_sp (s : State) : s.countDraw.sp = s.sp := rfl
@[simp] theorem State.countDraw_dt (s : State) : s.countDraw.dt = s.dt := rfl
@[simp] theorem State.countDraw_st (s : State) : s.countDraw.st = s.st := rfl
@[simp] theorem State.countDraw_redraw (s : State) : s.countDraw.redraw = s.redraw := rfl
@[simp] theorem State.countDraw_fault (s : State) : s.countDraw.fault = s.fault := rfl
@[simp] theorem State.countDraw_params (s : State) : s.countDraw.params = s.params := rfl
@[simp] theorem State.countDraw_draws (s : State) : s.countDraw.draws = s.draws + 1 := rfl
@[simp] theorem State.countDraw_reg (s : State) (r : Reg) : s.countDraw.reg r = s.reg r := rfl

/-! ## advance -/

@[simp] theorem State.advance_mem (s : State) : s.advance.mem = s.mem := rfl
@[simp] theorem State.advance_regs (s : State) : s.advance.regs = s.regs := rfl
@[simp] theorem State.advance_iReg (s : State) : s.advance.iReg = s.iReg := rfl
@[simp] theorem State.advance_pc (s : State) : s.advance.pc = s.pc + 2 := rfl
@[simp] theorem State.advance_sp (s : State) : s.advance.sp = s.sp := rfl
@[simp] theorem State.advance_dt (s : State) : s.advance.dt = s.dt := rfl
@[simp] theorem State.advance_st (s : State) : s.advance.st = s.st := rfl
@[simp] theorem State.advance_redraw (s : State) : s.advance.redraw = s.redraw := rfl
@[simp] theorem State.advance_fault (s : State) : s.advance.fault = s.fault := rfl
@[simp] theorem State.advance_params (s : State) : s.advance.params = s.params := rfl
@[simp] theorem State.advance_draws (s : State) : s.advance.draws = s.draws := rfl
@[simp] theorem State.advance_reg (s : State) (r : Reg) : s.advance.reg r = s.reg r := rfl

@[simp] theorem State.advance_instrAddr (s : State) : s.advance.instrAddr = s.pc := by
  simp [State.instrAddr]

/-! ## skipIf -/

@[simp] theorem State.skipIf_mem (s : State) (c : Bool) : (s.skipIf c).mem = s.mem := by cases c <;> rfl
@[simp] theorem State.skipIf_regs (s : State) (c : Bool) : (s.skipIf c).regs = s.regs := by cases c <;> rfl
@[simp] theorem State.skipIf_iReg (s : State) (c : Bool) : (s.skipIf c).iReg = s.iReg := by cases c <;> rfl
@[simp] theorem State.skipIf_sp (s : State) (c : Bool) : (s.skipIf c).sp = s.sp := by cases c <;> rfl
@[simp] theorem State.skipIf_dt (s : State) (c : Bool) : (s.skipIf c).dt = s.dt := by cases c <;> rfl
@[simp] theorem State.skipIf_st (s : State) (c : Bool) : (s.skipIf c).st = s.st := by cases c <;> rfl
@[simp] theorem State.skipIf_redraw (s : State) (c : Bool) : (s.skipIf c).redraw = s.redraw := by cases c <;> rfl
@[simp] theorem State.skipIf_fault (s : State) (c : Bool) : (s.skipIf c).fault = s.fault := by cases c <;> rfl
@[simp] theorem State.skipIf_params (s : State) (c : Bool) : (s.skipIf c).params = s.params := by cases c <;> rfl
@[simp] theorem State.skipIf_draws (s : State) (c : Bool) : (s.skipIf c).draws = s.draws := by cases c <;> rfl
@[simp] theorem State.skipIf_reg (s : State) (c : Bool) (r : Reg) : (s.skipIf c).reg r = s.reg r := by cases c <;> rfl

@[simp] theorem State.skipIf_pc (s : State) (c : Bool) : (s.skipIf c).pc = if c then s.pc + 2 else s.pc := by
  cases c <;> rfl

/-! ## raiseAt and raise -/

@[simp] theorem State.raiseAt_mem (s : State) (a : Word) (k : FaultKind) : (s.raiseAt a k).mem = s.mem := rfl
@[simp] theorem State.raiseAt_regs (s : State) (a : Word) (k : FaultKind) : (s.raiseAt a k).regs = s.regs := rfl
@[simp] theorem State.raiseAt_iReg (s : State) (a : Word) (k : FaultKind) : (s.raiseAt a k).iReg = s.iReg := rfl
@[simp] theorem State.raiseAt_pc (s : State) (a : Word) (k : FaultKind) : (s.raiseAt a k).pc = s.pc := rfl
@[simp] theorem State.raiseAt_sp (s : State) (a : Word) (k : FaultKind) : (s.raiseAt a k).sp = s.sp := rfl
@[simp] theorem State.raiseAt_dt (s : State) (a : Word) (k : FaultKind) : (s.raiseAt a k).dt = s.dt := rfl
@[simp] theorem State.raiseAt_st (s : State) (a : Word) (k : FaultKind) : (s.raiseAt a k).st = s.st := rfl
@[simp] theorem State.raiseAt_redraw (s : State) (a : Word) (k : FaultKind) : (s.raiseAt a k).redraw = s.redraw := rfl
@[simp] theorem State.raiseAt_fault (s : State) (a : Word) (k : FaultKind) : (s.raiseAt a k).fault = some ⟨k, a⟩ := rfl
@[simp] theorem State.raiseAt_params (s : State) (a : Word) (k : FaultKind) : (s.raiseAt a k).params = s.params := rfl
@[simp] theorem State.raiseAt_draws (s : State) (a : Word) (k : FaultKind) : (s.raiseAt a k).draws = s.draws := rfl
@[simp] theorem State.raiseAt_reg (s : State) (a : Word) (k : FaultKind) (r : Reg) : (s.raiseAt a k).reg r = s.reg r := rfl
@[simp] theorem State.raise_mem (s : State) (k : FaultKind) : (s.raise k).mem = s.mem := rfl
@[simp] theorem State.raise_regs (s : State) (k : FaultKind) : (s.raise k).regs = s.regs := rfl
@[simp] theorem State.raise_iReg (s : State) (k : FaultKind) : (s.raise k).iReg = s.iReg := rfl
@[simp] theorem State.raise_pc (s : State) (k : FaultKind) : (s.raise k).pc = s.pc := rfl
@[simp] theorem State.raise_sp (s : State) (k : FaultKind) : (s.raise k).sp = s.sp := rfl
@[simp] theorem State.raise_dt (s : State) (k : FaultKind) : (s.raise k).dt = s.dt := rfl
@[simp] theorem State.raise_st (s : State) (k : FaultKind) : (s.raise k).st = s.st := rfl
@[simp] theorem State.raise_redraw (s : State) (k : FaultKind) : (s.raise k).redraw = s.redraw := rfl
@[simp] theorem State.raise_fault (s : State) (k : FaultKind) : (s.raise k).fault = some ⟨k, s.instrAddr⟩ := rfl
@[simp] theorem State.raise_params (s : State) (k : FaultKind) : (s.raise k).params = s.params := rfl
@[simp] theorem State.raise_draws (s : State) (k : FaultKind) : (s.raise k).draws = s.draws := rfl
@[simp] theorem State.raise_reg (s : State) (k : FaultKind) (r : Reg) : (s.raise k).reg r = s.reg r := rfl

/-! ## writeFlagged leaves every other field -/

@[simp] theorem State.writeFlagged_mem (s : State) (d : Reg) (v : Byte) (f : Bool) :
    (s.writeFlagged d v f).mem = s.mem := by unfold State.writeFlagged; split <;> rfl
@[simp] theorem State.writeFlagged_iReg (s : State) (d : Reg) (v : Byte) (f : Bool) :
    (s.writeFlagged d v f).iReg = s.iReg := by unfold State.writeFlagged; split <;> rfl
@[simp] theorem State.writeFlagged_pc (s : State) (d : Reg) (v : Byte) (f : Bool) :
    (s.writeFlagged d v f).pc = s.pc := by unfold State.writeFlagged; split <;> rfl
@[simp] theorem State.writeFlagged_sp (s : State) (d : Reg) (v : Byte) (f : Bool) :
    (s.writeFlagged d v f).sp = s.sp := by unfold State.writeFlagged; split <;> rfl
@[simp] theorem State.writeFlagged_dt (s : State) (d : Reg) (v : Byte) (f : Bool) :
    (s.writeFlagged d v f).dt = s.dt := by unfold State.writeFlagged; split <;> rfl
@[simp] theorem State.writeFlagged_st (s : State) (d : Reg) (v : Byte) (f : Bool) :
    (s.writeFlagged d v f).st = s.st := by unfold State.writeFlagged; split <;> rfl
@[simp] theorem State.writeFlagged_redraw (s : State) (d : Reg) (v : Byte) (f : Bool) :
    (s.writeFlagged d v f).redraw = s.redraw := by unfold State.writeFlagged; split <;> rfl
@[simp] theorem State.writeFlagged_fault (s : State) (d : Reg) (v : Byte) (f : Bool) :
    (s.writeFlagged d v f).fault = s.fault := by unfold State.writeFlagged; split <;> rfl
@[simp] theorem State.writeFlagged_params (s : State) (d : Reg) (v : Byte) (f : Bool) :
    (s.writeFlagged d v f).params = s.params := by unfold State.writeFlagged; split <;> rfl
@[simp] theorem State.writeFlagged_draws (s : State) (d : Reg) (v : Byte) (f : Bool) :
    (s.writeFlagged d v f).draws = s.draws := by unfold State.writeFlagged; split <;> rfl
/-! ## setRegs leaves every other field -/

@[simp] theorem State.setRegs_mem (s : State) (rs : List Reg) (bs : List Byte) :
    (s.setRegs rs bs).mem = s.mem := by
  induction rs generalizing s bs with
  | nil => rfl
  | cons r rs ih => cases bs with
    | nil => rfl
    | cons b bs => exact ih (s.setReg r b) bs
@[simp] theorem State.setRegs_iReg (s : State) (rs : List Reg) (bs : List Byte) :
    (s.setRegs rs bs).iReg = s.iReg := by
  induction rs generalizing s bs with
  | nil => rfl
  | cons r rs ih => cases bs with
    | nil => rfl
    | cons b bs => exact ih (s.setReg r b) bs
@[simp] theorem State.setRegs_pc (s : State) (rs : List Reg) (bs : List Byte) :
    (s.setRegs rs bs).pc = s.pc := by
  induction rs generalizing s bs with
  | nil => rfl
  | cons r rs ih => cases bs with
    | nil => rfl
    | cons b bs => exact ih (s.setReg r b) bs
@[simp] theorem State.setRegs_sp (s : State) (rs : List Reg) (bs : List Byte) :
    (s.setRegs rs bs).sp = s.sp := by
  induction rs generalizing s bs with
  | nil => rfl
  | cons r rs ih => cases bs with
    | nil => rfl
    | cons b bs => exact ih (s.setReg r b) bs
@[simp] theorem State.setRegs_dt (s : State) (rs : List Reg) (bs : List Byte) :
    (s.setRegs rs bs).dt = s.dt := by
  induction rs generalizing s bs with
  | nil => rfl
  | cons r rs ih => cases bs with
    | nil => rfl
    | cons b bs => exact ih (s.setReg r b) bs
@[simp] theorem State.setRegs_st (s : State) (rs : List Reg) (bs : List Byte) :
    (s.setRegs rs bs).st = s.st := by
  induction rs generalizing s bs with
  | nil => rfl
  | cons r rs ih => cases bs with
    | nil => rfl
    | cons b bs => exact ih (s.setReg r b) bs
@[simp] theorem State.setRegs_redraw (s : State) (rs : List Reg) (bs : List Byte) :
    (s.setRegs rs bs).redraw = s.redraw := by
  induction rs generalizing s bs with
  | nil => rfl
  | cons r rs ih => cases bs with
    | nil => rfl
    | cons b bs => exact ih (s.setReg r b) bs
@[simp] theorem State.setRegs_fault (s : State) (rs : List Reg) (bs : List Byte) :
    (s.setRegs rs bs).fault = s.fault := by
  induction rs generalizing s bs with
  | nil => rfl
  | cons r rs ih => cases bs with
    | nil => rfl
    | cons b bs => exact ih (s.setReg r b) bs
@[simp] theorem State.setRegs_params (s : State) (rs : List Reg) (bs : List Byte) :
    (s.setRegs rs bs).params = s.params := by
  induction rs generalizing s bs with
  | nil => rfl
  | cons r rs ih => cases bs with
    | nil => rfl
    | cons b bs => exact ih (s.setReg r b) bs
@[simp] theorem State.setRegs_draws (s : State) (rs : List Reg) (bs : List Byte) :
    (s.setRegs rs bs).draws = s.draws := by
  induction rs generalizing s bs with
  | nil => rfl
  | cons r rs ih => cases bs with
    | nil => rfl
    | cons b bs => exact ih (s.setReg r b) bs

end Sys2Proof.Machine
end

