-- ==== Sys2Proof/Laws/Ops.lean ====
section
/-! SUPPORT. One lemma per shared operation, saying once what it can do: raising, the fetch, the flag writes, the
register list of FX55 and FX65, and the drawing of a sprite. -/

namespace Sys2Proof.Machine

/-! ## Raising -/

/-- An access that may raise: it goes on with what the access gave, or it raises and changes nothing else. -/
theorem State.orRaise_cases {α : Type} {s t : State} {r : Except FaultKind α} {f : α → State}
    (h : s.orRaise r f = .next t) :
    (∃ v, r = .ok v ∧ t = f v) ∨ (∃ k, r = .error k ∧ t = s.raise k) := by
  cases r with
  | ok v => exact .inl ⟨v, rfl, by simpa [State.orRaise] using h.symm⟩
  | error k => exact .inr ⟨k, rfl, by simpa [State.orRaise] using h.symm⟩

@[simp] theorem State.orRaise_ok {α : Type} (s : State) (v : α) (f : α → State) :
    s.orRaise (.ok v) f = .next (f v) := rfl

@[simp] theorem State.orRaise_error {α : Type} (s : State) (k : FaultKind) (f : α → State) :
    s.orRaise (.error k) f = .next (s.raise k) := rfl

/-- A raise changes the fault record and nothing else. -/
theorem State.raiseAt_eq (s : State) (a : Word) (k : FaultKind) :
    s.raiseAt a k = { s with fault := some ⟨k, a⟩ } := rfl

/-! ## Fetch -/

/-- A word from its two bytes, as a number. -/
theorem wordOf_toNat (hi lo : Byte) : (wordOf hi lo).toNat = hi.toNat * 256 + lo.toNat := by
  have hlo := lo.isLt
  simp only [wordOf, BitVec.toNat_append]
  rw [← Nat.shiftLeft_add_eq_or_of_lt hlo, Nat.shiftLeft_eq]

/-- The fetch inside the image reads the two bytes at pc, the high byte first. -/
theorem State.fetch_of_le {s : State} (h : s.pc.toNat ≤ 0xFFE) :
    s.fetch = .ok (wordOf (s.mem.read s.pc.toNat) (s.mem.read (s.pc.toNat + 1))) := by
  unfold State.fetch
  rw [memRead_two (by omega)]
  simp only [Except.ok.injEq]
  apply BitVec.eq_of_toNat_eq
  have h1 := (s.mem.read s.pc.toNat).isLt
  have h2 := (s.mem.read (s.pc.toNat + 1)).isLt
  rw [wordOf_toNat, BitVec.toNat_ofNat, Nat.mod_eq_of_lt (by omega)]

/-- The fetch past the image is a fault of the lowest offending address. -/
theorem State.fetch_past {s : State} (h : 0xFFE < s.pc.toNat) :
    s.fetch = .error (.memoryOutOfRange (if s.pc.toNat > 0xFFF then s.pc.toNat else 0x1000)) := by
  unfold State.fetch
  rw [memRead_past (by omega) (by omega)]

/-- What a fetch can do. -/
theorem State.fetch_cases (s : State) :
    (s.pc.toNat ≤ 0xFFE ∧
      s.fetch = .ok (wordOf (s.mem.read s.pc.toNat) (s.mem.read (s.pc.toNat + 1)))) ∨
    (0xFFE < s.pc.toNat ∧
      s.fetch = .error (.memoryOutOfRange (if s.pc.toNat > 0xFFF then s.pc.toNat else 0x1000))) := by
  by_cases h : s.pc.toNat ≤ 0xFFE
  · exact .inl ⟨h, State.fetch_of_le h⟩
  · exact .inr ⟨by omega, State.fetch_past (by omega)⟩

/-- What a step can do: run the decoded instruction after the advance, raise an unknown word after the
advance, or raise a fetch fault at pc; and only from a state with no fault. -/
theorem step_cases {s t : State} (h : step s = .next t) :
    s.fault = none ∧
    ((∃ w i, s.fetch = .ok w ∧ decode w = .ok i ∧ exec i s.advance = .next t) ∨
     (∃ w e, s.fetch = .ok w ∧ decode w = .error e ∧
        t = s.advance.raiseAt s.pc (.unknownInstruction s.pc w)) ∨
     (∃ k, s.fetch = .error k ∧ t = s.raiseAt s.pc k)) := by
  unfold step at h
  split at h
  · cases h
  · next hf =>
    refine ⟨hf, ?_⟩
    split at h
    · next k hk => exact .inr (.inr ⟨k, hk, by simpa using h.symm⟩)
    · next w hw =>
      split at h
      · next e he => exact .inr (.inl ⟨w, e, hw, he, by simpa using h.symm⟩)
      · next i hi => exact .inl ⟨w, i, hw, hi, h⟩

/-! ## Flag writes -/

/-- A flagged write whose destination is not VF: the result in the destination, the flag in VF. -/
theorem State.writeFlagged_reg {s : State} {d : Reg} (hd : d ≠ vf) (v : Byte) (f : Bool) (q : Reg) :
    (s.writeFlagged d v f).reg q = if q = d then v else if q = vf then flagByte f else s.reg q := by
  unfold State.writeFlagged
  split
  · simp [State.setReg_reg]
  · simp only [State.setReg_reg]
    by_cases h : q = vf
    · subst h; simp [Ne.symm hd]
    · simp [h]

/-- A flagged write whose destination is VF: `ALU_ALIAS_ORDER` decides which write remains. -/
theorem State.writeFlagged_reg_vf (s : State) (v : Byte) (f : Bool) (q : Reg) :
    (s.writeFlagged vf v f).reg q =
      if q = vf then (if s.params.aluAliasOrder = .flagThenResult then v else flagByte f) else s.reg q := by
  unfold State.writeFlagged
  split <;> next h => simp only [State.setReg_reg, h]; split <;> simp_all

/-- A flagged write leaves every register but the destination and VF. -/
theorem State.writeFlagged_reg_kept (s : State) {d q : Reg} (v : Byte) (f : Bool) (h1 : q ≠ d)
    (h2 : q ≠ vf) : (s.writeFlagged d v f).reg q = s.reg q := by
  unfold State.writeFlagged
  split <;> simp [State.setReg_reg, h1, h2]

/-! ## Register lists (46_index_memory.md R264, R265) -/

theorem mem_regsUpTo (x r : Reg) : r ∈ regsUpTo x ↔ r ≤ x := by
  revert x r; decide

theorem regsUpTo_length (x : Reg) : (regsUpTo x).length = x.val + 1 := by
  revert x; decide

theorem regsUpTo_nodup (x : Reg) : (regsUpTo x).Nodup := by
  revert x; decide

theorem regsUpTo_getElem? (x r : Reg) : (regsUpTo x)[r.val]? = if r ≤ x then some r else none := by
  revert x r; decide

@[simp] theorem State.regValues_length (s : State) (x : Reg) : (s.regValues x).length = x.val + 1 := by
  simp [State.regValues, regsUpTo_length]

/-- The `r`-th stored byte is register `r`. -/
theorem State.regValues_getElem (s : State) (x r : Reg) (h : r.val < (s.regValues x).length) :
    (s.regValues x)[r.val] = s.reg r := by
  have hr : r ≤ x := by
    have : r.val < x.val + 1 := by simpa using h
    exact Fin.le_def.2 (by omega)
  have hlen : r.val < (regsUpTo x).length := by rw [regsUpTo_length]; simpa using h
  have := regsUpTo_getElem? x r
  rw [if_pos hr, List.getElem?_eq_getElem hlen, Option.some.injEq] at this
  simp [State.regValues, this]

/-- A register that the list does not name keeps its value. -/
theorem State.setRegs_reg_kept (s : State) (rs : List Reg) (bs : List Byte) {q : Reg} (h : q ∉ rs) :
    (s.setRegs rs bs).reg q = s.reg q := by
  induction rs generalizing s bs with
  | nil => rfl
  | cons r rs ih =>
    cases bs with
    | nil => rfl
    | cons b bs =>
      simp only [List.mem_cons, not_or] at h
      simp only [State.setRegs]
      rw [ih _ _ h.2, State.setReg_reg, if_neg h.1]

/-- The `j`-th register of the list takes the `j`-th byte. -/
theorem State.setRegs_reg_getElem (s : State) {rs : List Reg} {bs : List Byte} (hn : rs.Nodup)
    (j : Nat) (hj : j < rs.length) (hb : j < bs.length) : (s.setRegs rs bs).reg rs[j] = bs[j] := by
  induction rs generalizing s bs j with
  | nil => simp at hj
  | cons r rs ih =>
    cases bs with
    | nil => simp at hb
    | cons b bs =>
      rw [List.nodup_cons] at hn
      simp only [State.setRegs]
      cases j with
      | zero =>
        simp only [List.getElem_cons_zero]
        rw [State.setRegs_reg_kept _ _ _ hn.1, State.setReg_reg_same]
      | succ j => simpa using ih (s.setReg r b) hn.2 j (by simpa using hj) (by simpa using hb)

/-! ## Drawing (43_display.md R212) -/

/-- What every stage of a drawing keeps: the canonical form, and every byte outside the framebuffer. -/
def Drawing.Keeps (d e : Drawing) : Prop :=
  (d.mem.wf = true → e.mem.wf = true) ∧
  ∀ a, (a < 0xF00 ∨ 0x1000 ≤ a) → e.mem.read a = d.mem.read a

theorem Drawing.Keeps.refl (d : Drawing) : d.Keeps d := ⟨id, fun _ _ => rfl⟩

theorem Drawing.Keeps.trans {d e f : Drawing} (h1 : d.Keeps e) (h2 : e.Keeps f) : d.Keeps f :=
  ⟨h2.1 ∘ h1.1, fun a ha => (h2.2 a ha).trans (h1.2 a ha)⟩

theorem Drawing.pixel_keeps (d : Drawing) {px py : Nat} (hx : px < 64) (hy : py < 32) (b : Bool) :
    d.Keeps (d.pixel px py b) :=
  ⟨fun h => Memory.wf_setPixel h hx hy _, fun _ ha => Memory.read_setPixel_outside _ hx hy _ ha⟩

theorem Drawing.row_keeps (d : Drawing) (msb : Bool) (cx y : Nat) (bits : Byte) :
    d.Keeps (d.row msb cx y bits) := by
  unfold Drawing.row
  generalize columns = cs
  induction cs generalizing d with
  | nil => exact Drawing.Keeps.refl d
  | cons c cs ih =>
    exact (Drawing.pixel_keeps d (Nat.mod_lt _ (by omega)) (Nat.mod_lt _ (by omega)) _).trans (ih _)

theorem Drawing.rows_keeps (d : Drawing) (msb : Bool) (cx y : Nat) (sprite : List Byte) :
    d.Keeps (d.rows msb cx y sprite) := by
  induction sprite generalizing d y with
  | nil => exact Drawing.Keeps.refl d
  | cons bits rest ih => exact (Drawing.row_keeps d msb cx y bits).trans (ih _ _)

/-- Drawing a sprite: registers but VF, and everything but memory, VF and `redraw`, are kept. -/
theorem State.drawSprite_reg (s : State) (x y : Reg) (sprite : List Byte) {r : Reg} (h : r ≠ vf) :
    (s.drawSprite x y sprite).reg r = s.reg r := by
  simp [State.drawSprite, State.setReg_reg, h]

/-- Drawing a sprite leaves every byte outside the framebuffer alone. -/
theorem State.drawSprite_read (s : State) (x y : Reg) (sprite : List Byte) {a : Nat}
    (h : a < 0xF00 ∨ 0x1000 ≤ a) : (s.drawSprite x y sprite).mem.read a = s.mem.read a := by
  simpa [State.drawSprite] using
    (Drawing.rows_keeps ⟨s.mem, false, false⟩ s.params.spriteMsbLeft (s.reg x).toNat (s.reg y).toNat
      sprite).2 a h

/-- Drawing a sprite keeps the canonical form. -/
theorem State.drawSprite_wf {s : State} (hs : s.mem.wf = true) (x y : Reg) (sprite : List Byte) :
    (s.drawSprite x y sprite).mem.wf = true := by
  simpa [State.drawSprite] using
    (Drawing.rows_keeps ⟨s.mem, false, false⟩ s.params.spriteMsbLeft (s.reg x).toNat (s.reg y).toNat
      sprite).1 hs

/-! ## Clearing the framebuffer (43_display.md R211) -/

/-- Outside the font an unlisted byte reads as 0 (10_state.md R40; assumption log 3). -/
theorem resetByte_of_ge {a : Nat} (h : 80 ≤ a) : resetByte a = 0 := if_neg (by simp only [Config.fontSize]; omega)

/-- Removing cells by address: what stays reads as before, what goes reads as unlisted. -/
theorem Memory.read_filter {m : Memory} (hm : m.wf = true) (p : Nat → Bool) (a : Nat) :
    Memory.read (m.filter fun e => p e.1) a = if p a then m.read a else resetByte a := by
  induction m with
  | nil => simp
  | cons e rest ih =>
    obtain ⟨k, c⟩ := e
    rw [Memory.wf_cons] at hm
    have ih := ih hm.2.2.2
    by_cases hp : p k = true
    · rw [List.filter_cons_of_pos (by simpa using hp), Memory.read_cons, Memory.read_cons, ih]
      by_cases hk : k = a
      · subst hk; simp [hp]
      · simp [hk]
    · rw [List.filter_cons_of_neg (by simpa using hp), ih, Memory.read_cons]
      by_cases hk : k = a
      · subst hk; simp [hp]
      · simp [hk]

/-- Removing cells by address keeps the canonical form. -/
theorem Memory.wf_filter {m : Memory} (hm : m.wf = true) (p : Nat → Bool) :
    Memory.wf (m.filter fun e => p e.1) = true := by
  induction m with
  | nil => rfl
  | cons e rest ih =>
    obtain ⟨k, c⟩ := e
    rw [Memory.wf_cons] at hm
    by_cases hp : p k = true
    · rw [List.filter_cons_of_pos (by simpa using hp), Memory.wf_cons]
      exact ⟨hm.1, hm.2.1, fun e he => hm.2.2.1 e (List.mem_filter.1 he).1, ih hm.2.2.2⟩
    · rw [List.filter_cons_of_neg (by simpa using hp)]
      exact ih hm.2.2.2

/-- Clearing leaves every byte outside the framebuffer alone. -/
theorem Memory.clearFramebuffer_outside {m : Memory} {a : Nat} (h : a < 0xF00 ∨ 0x1000 ≤ a) :
    m.clearFramebuffer.read a = m.read a := by
  unfold Memory.clearFramebuffer
  induction m with
  | nil => rfl
  | cons e rest ih =>
    obtain ⟨k, c⟩ := e
    simp only [Config.fbBase, Config.lastAddr, List.filter_cons] at ih ⊢
    split
    · rw [Memory.read_cons, Memory.read_cons, ih]
    · next hk =>
      rw [Memory.read_cons, ih, if_neg]
      rintro rfl
      exact hk (by simp; omega)

theorem Memory.clearFramebuffer_wf {m : Memory} (hm : m.wf = true) : m.clearFramebuffer.wf = true :=
  Memory.wf_filter hm fun a => decide (a < Config.fbBase ∨ Config.lastAddr < a)

theorem Memory.clearFramebuffer_inside {m : Memory} (hm : m.wf = true) {a : Nat} (h1 : 0xF00 ≤ a)
    (h2 : a ≤ 0xFFF) : m.clearFramebuffer.read a = 0 := by
  have h := Memory.read_filter hm (fun a => decide (a < Config.fbBase ∨ Config.lastAddr < a)) a
  rw [if_neg (by simp only [Config.fbBase, Config.lastAddr, decide_eq_true_eq]; omega),
    resetByte_of_ge (by omega)] at h
  exact h

end Sys2Proof.Machine
end

