-- ==== Sys2Proof/Laws/Draw.lean ====
section
/-! SUPPORT. What DXYN's loop (43_display.md R212) does as a whole: the pixels it visits as one list, no pixel twice,
and the memory, collision and change that a fold over such a list gives. -/

namespace Sys2Proof.Machine

/-! ## A fold over distinct pixels -/

/-- A pixel to draw: column, row and the sprite's bit. -/
abbrev Dot := Nat × Nat × Bool

/-- Draw one dot. -/
def Drawing.dot (d : Drawing) (p : Dot) : Drawing := d.pixel p.1 p.2.1 p.2.2

/-- Two dots at different places. -/
abbrev Dot.Apart (p q : Dot) : Prop := ¬ (p.1 = q.1 ∧ p.2.1 = q.2.1)

/-- Whether a list of dots has a 1 at a place. -/
def Dot.hits (ps : List Dot) (qx qy : Nat) : Bool :=
  ps.any fun p => decide (qx = p.1 ∧ qy = p.2.1) && p.2.2

theorem Dot.hits_eq_true {ps : List Dot} {qx qy : Nat} :
    Dot.hits ps qx qy = true ↔ (qx, qy, true) ∈ ps := by
  simp only [Dot.hits, List.any_eq_true, Bool.and_eq_true, decide_eq_true_eq]
  constructor
  · rintro ⟨⟨a, b, c⟩, hp, ⟨rfl, rfl⟩, h⟩
    simp only at h
    exact h ▸ hp
  · exact fun h => ⟨_, h, ⟨rfl, rfl⟩, rfl⟩

/-- Drawing dots at different places: every pixel is its old value exclusive or the dots' bit there; collision is a
1 over a set pixel; changed is a 1 anywhere. -/
theorem Drawing.dots {ps : List Dot} (hp : ps.Pairwise Dot.Apart) (hb : ∀ p ∈ ps, p.1 < 64 ∧ p.2.1 < 32)
    (d : Drawing) (hd : d.mem.wf = true) :
    (∀ qx qy, qx < 64 → (ps.foldl Drawing.dot d).mem.pixel qx qy = (d.mem.pixel qx qy ^^ Dot.hits ps qx qy)) ∧
    (ps.foldl Drawing.dot d).collision = (d.collision || ps.any fun p => p.2.2 && d.mem.pixel p.1 p.2.1) ∧
    (ps.foldl Drawing.dot d).changed = (d.changed || ps.any fun p => p.2.2) := by
  induction ps generalizing d with
  | nil => simp [Dot.hits]
  | cons p ps ih =>
    rw [List.pairwise_cons] at hp
    have hx := (hb p (by simp)).1
    have hy := (hb p (by simp)).2
    have hpix : ∀ qx qy, qx < 64 → (d.dot p).mem.pixel qx qy =
        if qx = p.1 ∧ qy = p.2.1 then d.mem.pixel p.1 p.2.1 ^^ p.2.2 else d.mem.pixel qx qy :=
      fun qx qy hq => Memory.pixel_setPixel hd p.2.1 qy hx hq _
    obtain ⟨h1, h2, h3⟩ := ih hp.2 (fun q hq => hb q (by simp [hq])) (d.dot p) (Memory.wf_setPixel hd hx hy _)
    rw [List.foldl_cons]
    refine ⟨fun qx qy hq => ?_, ?_, ?_⟩
    · rw [h1 qx qy hq, hpix qx qy hq]
      by_cases h : qx = p.1 ∧ qy = p.2.1
      · have : Dot.hits ps qx qy = false := by
          rw [Bool.eq_false_iff, ne_eq, Dot.hits_eq_true]
          exact fun hm => hp.1 _ hm ⟨h.1.symm, h.2.symm⟩
        rw [if_pos h, this]
        simp only [Dot.hits, List.any_cons, h, and_self, decide_true, Bool.true_and] at this ⊢
        rw [this]
        simp
      · rw [if_neg h]
        simp [Dot.hits, h]
    · have hany : (ps.any fun q => q.2.2 && (d.dot p).mem.pixel q.1 q.2.1) =
          ps.any fun q => q.2.2 && d.mem.pixel q.1 q.2.1 := by
        apply Bool.eq_iff_iff.2
        simp only [List.any_eq_true, Bool.and_eq_true]
        constructor <;> rintro ⟨q, hq, hb1, hb2⟩ <;> refine ⟨q, hq, hb1, ?_⟩
        · rw [hpix _ _ (hb q (by simp [hq])).1, if_neg (fun e => hp.1 q hq ⟨e.1.symm, e.2.symm⟩)] at hb2
          exact hb2
        · rw [hpix _ _ (hb q (by simp [hq])).1, if_neg (fun e => hp.1 q hq ⟨e.1.symm, e.2.symm⟩)]
          exact hb2
      rw [h2, hany, List.any_cons]
      have : (d.dot p).collision = (d.collision || (p.2.2 && d.mem.pixel p.1 p.2.1)) := by
        simp only [Drawing.dot, Drawing.pixel]
        cases d.mem.pixel p.1 p.2.1 <;> cases p.2.2 <;> rfl
      rw [this, Bool.or_assoc]
    · rw [h3, List.any_cons]
      have : (d.dot p).changed = (d.changed || p.2.2) := by
        simp only [Drawing.dot, Drawing.pixel]
        cases d.mem.pixel p.1 p.2.1 <;> cases p.2.2 <;> rfl
      rw [this, Bool.or_assoc]

/-! ## The dots of a sprite -/

/-- The dots of one row at coordinates (cx, y). -/
def rowDots (msb : Bool) (cx y : Nat) (bits : Byte) : List Dot :=
  columns.map fun c => ((cx + c) % 64, y % 32, spriteBit msb bits c)

/-- The dots of the rows, the first at coordinate `y`. -/
def spriteDots (msb : Bool) (cx : Nat) : Nat → List Byte → List Dot
  | _, [] => []
  | y, bits :: rest => rowDots msb cx y bits ++ spriteDots msb cx (y + 1) rest

/-- DXYN's loop is the fold over the sprite's dots. -/
theorem Drawing.rows_eq (d : Drawing) (msb : Bool) (cx y : Nat) (sprite : List Byte) :
    d.rows msb cx y sprite = (spriteDots msb cx y sprite).foldl Drawing.dot d := by
  induction sprite generalizing d y with
  | nil => rfl
  | cons bits rest ih =>
    simp only [Drawing.rows, spriteDots, List.foldl_append]
    rw [ih]
    congr 1

theorem mem_rowDots {msb : Bool} {cx y : Nat} {bits : Byte} {p : Dot} :
    p ∈ rowDots msb cx y bits ↔ ∃ c, c < 8 ∧ p = ((cx + c) % 64, y % 32, spriteBit msb bits c) := by
  simp only [rowDots, List.mem_map]
  constructor
  · rintro ⟨c, hc, rfl⟩
    refine ⟨c, ?_, rfl⟩
    simp only [columns, List.mem_cons, List.not_mem_nil, or_false] at hc
    omega
  · rintro ⟨c, hc, rfl⟩
    refine ⟨c, ?_, rfl⟩
    simp only [columns, List.mem_cons, List.not_mem_nil, or_false]
    omega

/-- The dots of a sprite: column `c` of row `r`, wrapped around. -/
theorem mem_spriteDots {msb : Bool} {cx y : Nat} {sprite : List Byte} {p : Dot} :
    p ∈ spriteDots msb cx y sprite ↔ ∃ (r : Nat) (h : r < sprite.length) (c : Nat), c < 8 ∧
      p = ((cx + c) % 64, (y + r) % 32, spriteBit msb sprite[r] c) := by
  induction sprite generalizing y with
  | nil => simp [spriteDots]
  | cons bits rest ih =>
    simp only [spriteDots, List.mem_append, mem_rowDots, ih]
    constructor
    · rintro (⟨c, hc, rfl⟩ | ⟨r, hr, c, hc, rfl⟩)
      · exact ⟨0, by simp, c, hc, rfl⟩
      · exact ⟨r + 1, by simpa using hr, c, hc, by simp [Nat.add_assoc, Nat.add_comm 1 r]⟩
    · rintro ⟨r, hr, c, hc, rfl⟩
      cases r with
      | zero => exact .inl ⟨c, hc, rfl⟩
      | succ r =>
        exact .inr ⟨r, by simpa using hr, c, hc, by simp [Nat.add_assoc, Nat.add_comm 1 r]⟩

/-- No two dots of a sprite of at most 32 rows are at the same place. -/
theorem spriteDots_apart (msb : Bool) (cx y : Nat) (sprite : List Byte) (h : sprite.length ≤ 32) :
    (spriteDots msb cx y sprite).Pairwise Dot.Apart := by
  induction sprite generalizing y with
  | nil => exact List.Pairwise.nil
  | cons bits rest ih =>
    simp only [List.length_cons] at h
    simp only [spriteDots, List.pairwise_append]
    refine ⟨?_, ih (y + 1) (by omega), ?_⟩
    · simp only [rowDots, List.pairwise_map, columns]
      simp only [List.pairwise_cons, List.mem_cons, List.not_mem_nil, or_false, Dot.Apart]
      refine ⟨?_, ?_, ?_, ?_, ?_, ?_, ?_, ?_, List.Pairwise.nil⟩ <;> intro c hc <;>
        first | omega | exact hc.elim
    · intro p hp q hq
      obtain ⟨c, hc, rfl⟩ := mem_rowDots.1 hp
      obtain ⟨r, hr, c', hc', rfl⟩ := mem_spriteDots.1 hq
      simp only [Dot.Apart, not_and]
      intro _
      omega

/-- Every dot of a sprite is on the screen. -/
theorem spriteDots_bound {msb : Bool} {cx y : Nat} {sprite : List Byte} :
    ∀ p ∈ spriteDots msb cx y sprite, p.1 < 64 ∧ p.2.1 < 32 := by
  intro p hp
  obtain ⟨r, hr, c, hc, rfl⟩ := mem_spriteDots.1 hp
  exact ⟨Nat.mod_lt _ (by omega), Nat.mod_lt _ (by omega)⟩

end Sys2Proof.Machine
end

