-- ==== Sys2Proof/Laws/Encoded.lean ====
section
/-! SUPPORT. What a row of the opcode map (30_encoding.md R103) says of the fields of a word, in both directions, and
the 34 rows as `Encoded` statements' one proof form. -/

namespace Sys2Proof

/-- A word is the join of its four nibbles (30_encoding.md R91). -/
theorem word_eq_nibbles (w : Word) :
    w = wordGXYN (w.extractLsb' 12 4) (w.extractLsb' 8 4) (w.extractLsb' 4 4) (w.extractLsb' 0 4) := by
  apply BitVec.eq_of_toNat_eq
  have := w.isLt
  rw [wordGXYN_toNat]
  simp only [BitVec.extractLsb'_toNat, Nat.shiftRight_eq_div_pow]
  omega

/-- A word is the join of its group, its X nibble and its NN byte (30_encoding.md R91). -/
theorem word_eq_gxnn (w : Word) : w = wordGXNN (w.extractLsb' 12 4) (fieldX w) (fieldNN w) := by
  apply BitVec.eq_of_toNat_eq
  have := w.isLt
  rw [wordGXNN_toNat, fieldX_val, fieldNN_toNat]
  simp only [BitVec.extractLsb'_toNat, Nat.shiftRight_eq_div_pow]
  omega

/-- The group as a 4-bit field. -/
theorem extract_of_fieldG {w : Word} {k : Fin 16} (h : fieldG w = k) :
    w.extractLsb' 12 4 = BitVec.ofNat 4 k.val := by
  subst h
  apply BitVec.eq_of_toNat_eq
  simp only [fieldG, BitVec.toNat_ofNat]
  omega

/-- The N nibble as a 4-bit field. -/
theorem extract_of_fieldN {w : Word} {n : Nat} (h : fieldN w = n) :
    w.extractLsb' 0 4 = BitVec.ofNat 4 n := by
  subst h
  apply BitVec.eq_of_toNat_eq
  simp only [fieldN, BitVec.toNat_ofNat]
  omega

/-- A word of group `k` matches the pattern of group `k` under 0xF000. -/
theorem match_F000_of_fieldG {w : Word} {k : Fin 16} (h : fieldG w = k) :
    w &&& 0xF000 = wordGXYN (BitVec.ofNat 4 k.val) 0 0 0 := by
  rw [word_eq_nibbles w, Laws.EncodingRow.wordGXYN_and_F000, extract_of_fieldG h]

/-- A word of group `k` with sub-opcode N matches that pattern under 0xF00F. -/
theorem match_F00F_of_fields {w : Word} {k : Fin 16} {n : Nat} (h : fieldG w = k) (hn : fieldN w = n) :
    w &&& 0xF00F = wordGXYN (BitVec.ofNat 4 k.val) 0 0 (BitVec.ofNat 4 n) := by
  rw [word_eq_nibbles w, Laws.EncodingRow.wordGXYN_and_F00F, extract_of_fieldG h, extract_of_fieldN hn]

/-- A word of group `k` with sub-opcode NN matches that pattern under 0xF0FF. -/
theorem match_F0FF_of_fields {w : Word} {k : Fin 16} {nn : Byte} (h : fieldG w = k) (hn : fieldNN w = nn) :
    w &&& 0xF0FF = wordGXNN (BitVec.ofNat 4 k.val) 0 nn := by
  rw [word_eq_gxnn w, Laws.EncodingRow.wordGXNN_and_F0FF, extract_of_fieldG h, hn]

namespace Machine

/-- A row under 0xF000, from the decoder's arm for its group. -/
theorem encoded_F000 {p : Word} {g : Fin 16} {f : Word → Instr} (hg : fieldG p = g)
    (hd : ∀ w, fieldG w = g → decode w = .ok (f w)) : Encoded p 0xF000 f := fun w h =>
  hd w ((fieldG_of_match_F000 h).trans hg)

/-- A row under 0xF0FF, from the decoder's arm for its group and NN. -/
theorem encoded_F0FF {p : Word} {g : Fin 16} {b : Byte} {f : Word → Instr} (hg : fieldG p = g)
    (hb : fieldNN p = b) (hd : ∀ w, fieldG w = g → fieldNN w = b → decode w = .ok (f w)) :
    Encoded p 0xF0FF f := fun w h =>
  hd w ((fields_of_match_F0FF h).1.trans hg) ((fields_of_match_F0FF h).2.trans hb)

/-- A row under 0xF00F, from the decoder's arm for its group and N. -/
theorem encoded_F00F {p : Word} {g : Fin 16} {n : Nat} {f : Word → Instr} (hg : fieldG p = g)
    (hn : fieldN p = n) (hd : ∀ w, fieldG w = g → fieldN w = n → decode w = .ok (f w)) :
    Encoded p 0xF00F f := fun w h =>
  hd w ((fields_of_match_F00F h).1.trans hg) ((fields_of_match_F00F h).2.trans hn)

end Machine

end Sys2Proof
end

