-- ==== Sys2Proof/Laws/Launch.lean ====
section
/-! SUPPORT. The memory image a launch starts from (70_reset_and_hazards.md R340): canonical, and each address holds
the launch's byte. -/

namespace Sys2Proof.Machine

theorem Memory.above_ofBytes (f : Nat → Byte) (as : List Nat) {k : Nat} (h : ∀ a ∈ as, k < a) :
    Memory.above k (Memory.ofBytes f as) := by
  induction as with
  | nil => intro e he; cases he
  | cons b as ih => exact Memory.above_putCell _ (h b (by simp)) (ih fun a ha => h a (by simp [ha]))

/-- Listing rising addresses inside the image gives a canonical memory. -/
theorem Memory.wf_ofBytes (f : Nat → Byte) {as : List Nat} (h : as.Pairwise (· < ·))
    (hb : ∀ a ∈ as, a ≤ 0xFFF) : (Memory.ofBytes f as).wf = true := by
  induction as with
  | nil => rfl
  | cons b as ih =>
    rw [List.pairwise_cons] at h
    exact Memory.wf_putCell _ (hb b (by simp)) (Memory.above_ofBytes _ _ h.1)
      (ih h.2 fun a ha => hb a (by simp [ha]))

/-- Each listed address reads as its byte. -/
theorem Memory.read_ofBytes (f : Nat → Byte) {as : List Nat} (h : as.Pairwise (· < ·)) {a : Nat}
    (ha : a ∈ as) : (Memory.ofBytes f as).read a = f a := by
  induction as with
  | nil => cases ha
  | cons b as ih =>
    rw [List.pairwise_cons] at h
    simp only [Memory.ofBytes]
    by_cases e : a = b
    · subst e; exact Memory.read_putCell_same _ _ (Memory.above_ofBytes _ _ h.1)
    · rw [Memory.read_putCell_ne _ _ _ e]; exact ih h.2 (by simpa [e] using ha)

theorem mem_range_memSize {a : Nat} : a ∈ List.range Config.memSize ↔ a ≤ 0xFFF := by
  refine List.mem_range.trans ?_
  simp only [Config.memSize]
  omega

theorem Launch.bare_mem (l : Launch) :
    l.bare.mem = Memory.ofBytes l.byte (List.range Config.memSize) := by
  simp only [Launch.bare]

theorem Launch.bare_mem_wf (l : Launch) : l.bare.mem.wf = true := by
  rw [Launch.bare_mem]
  exact Memory.wf_ofBytes l.byte List.pairwise_lt_range fun a ha => mem_range_memSize.1 ha

theorem Launch.bare_mem_read (l : Launch) {a : Nat} (h : a ≤ 0xFFF) : l.bare.mem.read a = l.byte a := by
  rw [Launch.bare_mem]
  exact Memory.read_ofBytes l.byte List.pairwise_lt_range (mem_range_memSize.2 h)

/-- A launch of at most 3232 bytes starts in `bare` with the program copied (60_exceptions.md R322). -/
theorem Launch.start_of_le {l : Launch} (h : l.program.length ≤ 3232) :
    l.start = .next (l.bare.setMem (l.bare.mem.writeBytes 0x200 l.program)) := by
  rw [Launch.start, State.load, if_neg (by simp only [Config.maxProgram]; omega)]

/-- A launch of more is refused (92_eei_decisions.md D21). -/
theorem Launch.start_of_gt {l : Launch} (h : 3232 < l.program.length) :
    l.start = .refused (.programTooLong l.program.length) := by
  rw [Launch.start, State.load, if_pos h]

end Sys2Proof.Machine
end

