-- ==== Sys2Proof/Tests/Slice0.lean ====
section
/-! SUPPORT. Tests. Expected results are those of the spec's own vectors (95_test_vectors.md), named in each comment; a
word is written out from the patterns of 30_encoding.md R103. At the end, one witness for every obligation that has
hypotheses, each clause at a boundary value of its range. -/

namespace Sys2Proof.Tests

open Sys2Proof Sys2Proof.Machine

/-! ## Helpers -/

/-- `s` with bytes put at `a`. -/
def put (s : State) (a : Nat) (bs : List Byte) : State := s.setMem (s.mem.writeBytes a bs)

/-- One step on the word `w` placed at pc. -/
def run (s : State) (w : Nat) : Host.Outcome State Fault Refusal := step (s.withFetchWord 16 w)

/-- What `f` sees after an outcome that is a next state. -/
def after {α : Type} (o : Host.Outcome State Fault Refusal) (f : State → α) : Option α :=
  match o with
  | .next t => some (f t)
  | _ => none

/-- What `f` sees after a transaction that returns. -/
def said {α : Type} (o : Host.Outcome (State × Response) Fault Refusal) (f : State → Response → α) :
    Option α :=
  match o with
  | .next (t, r) => some (f t r)
  | _ => none

/-- What `f` sees after a run of transactions. -/
def ran {α : Type} (ts : List Transaction) (s : State) (f : State → α) : Option α :=
  match runTransactions ts s with
  | .next (t, _) => some (f t)
  | _ => none

/-- `reset` with V1 and V2. -/
def v12 (a b : Byte) : State := (State.reset.setReg 1 a).setReg 2 b

/-- `reset` with other parameters. -/
def withParams (s : State) (p : Params) : State := { s with params := p }

/-- A state with a fault recorded. -/
def faulted : State := State.reset.raiseAt 0x200 (.unknownInstruction 0x200 0x0123)

/-! ## WellFormed: the one check, and a term it refuses -/

theorem test_wellformed_refuses_16_rows : (Instr.drw 0 0 16).WellFormed = false := by decide

theorem test_wellformed_accepts_15_rows : (Instr.drw 15 15 15).WellFormed = true := by decide

/-! ## Decoding: a word of every constructor, written out from R103 -/

/-- 0000 xxxx 1110 0000, 0000 xxxx 1110 1110 (FD5, FD6: X is ignored). -/
theorem test_decode_group0 :
    decode 0x00E0 = .ok .cls ∧ decode 0x01E0 = .ok .cls ∧ decode 0x0FE0 = .ok .cls ∧
    decode 0x00EE = .ok .ret ∧ decode 0x0AEE = .ok .ret := by decide

/-- CF1, CF3, CF8. -/
theorem test_decode_jumps :
    decode 0x1234 = .ok (.jp 0x234) ∧ decode 0x2400 = .ok (.call 0x400) ∧
    decode 0xBFFF = .ok (.jpV0 0xFFF) := by decide

/-- CF10, CF12, CF14, CF16. -/
theorem test_decode_skips :
    decode 0x3342 = .ok (.seImm 3 0x42) ∧ decode 0x4342 = .ok (.sneImm 3 0x42) ∧
    decode 0x5120 = .ok (.seReg 1 2) ∧ decode 0x9120 = .ok (.sneReg 1 2) := by decide

/-- AL1, AL2, AL4, AL32. -/
theorem test_decode_loads :
    decode 0x6A2F = .ok (.ldImm 0xA 0x2F) ∧ decode 0x7002 = .ok (.addImm 0 2) ∧
    decode 0x8120 = .ok (.ldReg 1 2) ∧ decode 0xC30F = .ok (.rnd 3 0x0F) := by decide

/-- AL5 to AL30. -/
theorem test_decode_group8 :
    decode 0x8121 = .ok (.or 1 2) ∧ decode 0x8122 = .ok (.and 1 2) ∧ decode 0x8123 = .ok (.xor 1 2) ∧
    decode 0x8124 = .ok (.addReg 1 2) ∧ decode 0x8125 = .ok (.sub 1 2) ∧
    decode 0x8126 = .ok (.shr 1 2) ∧ decode 0x8127 = .ok (.subn 1 2) ∧ decode 0x812E = .ok (.shl 1) := by
  decide

/-- DI15, KY5, KY7. -/
theorem test_decode_display_keys :
    decode 0xD015 = .ok (.drw 0 1 5) ∧ decode 0xE39E = .ok (.skp 3) ∧ decode 0xE3A1 = .ok (.sknp 3) ∧
    decode 0xF30A = .ok (.ldKey 3) := by decide

/-- TM1 to TM3, MX1 to MX20. -/
theorem test_decode_timers_memory :
    decode 0xF507 = .ok (.ldFromDt 5) ∧ decode 0xF515 = .ok (.ldToDt 5) ∧ decode 0xF218 = .ok (.ldToSt 2) ∧
    decode 0xA2F0 = .ok (.ldI 0x2F0) ∧ decode 0xF11E = .ok (.addI 1) ∧ decode 0xF429 = .ok (.ldFont 4) ∧
    decode 0xF033 = .ok (.ldBcd 0) ∧ decode 0xF255 = .ok (.store 2) ∧ decode 0xF265 = .ok (.load 2) := by
  decide

/-- FD7: words with no handler, each with the name of its class. -/
theorem test_decode_unknown :
    decode 0x0000 = .error .unknownGroup0 ∧ decode 0x0123 = .error .unknownGroup0 ∧
    decode 0x00E1 = .error .unknownGroup0 ∧ decode 0x5121 = .error .unknownGroup5 ∧
    decode 0x9AB1 = .error .unknownGroup9 ∧ decode 0x8008 = .error .unknownGroup8 ∧
    decode 0x800D = .error .unknownGroup8 ∧ decode 0x800F = .error .unknownGroup8 ∧
    decode 0xE09F = .error .unknownGroupE ∧ decode 0xF01F = .error .unknownGroupF ∧
    decode 0xF066 = .error .unknownGroupF := by decide

/-- R90: the high byte comes first, and an instruction has two bytes. -/
theorem test_decode_bytes :
    decodeBytes [0x12, 0x34, 0x56] = .ok (.jp 0x234, [0x56]) ∧ decodeBytes [0x12] = .error .truncated ∧
    decodeTableWord 16 0xD015 = some (.drw 0 1 5) ∧ encode (.drw 0 1 5) = 0xD015 := by decide

/-! ## The step (40_fetch_execute.md) -/

/-- FD1: the last word of memory runs, and pc becomes 0x1000. -/
theorem test_fetch_last_word :
    after (run (State.reset.setPc 0xFFE) 0x00E0) (fun t => (t.pc, t.redraw, t.fault)) =
      some (0x1000, true, none) := by decide +kernel

/-- FD3, FD4: a fetch past 0xFFF leaves pc. -/
theorem test_fetch_past :
    after (step (State.reset.setPc 0xFFF)) (fun t => (t.pc, t.fault)) =
      some (0xFFF, some ⟨.memoryOutOfRange 0x1000, 0xFFF⟩) ∧
    after (step (State.reset.setPc 0x10FE)) (fun t => (t.pc, t.fault)) =
      some (0x10FE, some ⟨.memoryOutOfRange 0x10FE, 0x10FE⟩) := by decide

/-- L1-11, EH1, EH2: an unknown word, and the step after it. -/
theorem test_unknown_word :
    after (run State.reset 0x0123) (fun t => (t.pc, t.fault)) =
      some (0x202, some ⟨.unknownInstruction 0x200 0x0123, 0x200⟩) ∧
    step faulted = .fault (.runEnded ⟨.unknownInstruction 0x200 0x0123, 0x200⟩) := ⟨by decide, rfl⟩

/-- HZ1: a store into the next word is what the next step fetches. -/
theorem test_self_modifying :
    after (run (((State.reset.setI 0x202).setReg 0 0x12).setReg 1 0x02) 0xF155)
      (fun t => after (step t) (fun u => (u.pc, u.fault))) = some (some (0x202, none)) := by decide

/-! ## Control flow (41_control_flow.md) -/

/-- CF1, CF2. -/
theorem test_jp :
    after (run State.reset 0x1234) (fun t => t.pc) = some 0x234 ∧
    (State.reset.withFetchWord 16 0x1200).finished = true := by decide

/-- CF4: the last slot of the stack. -/
theorem test_call_last_slot :
    after (run ((State.reset.setPc 0x300).setSp 0xEFE) 0x2400)
      (fun t => (t.mem.read 0xEFE, t.mem.read 0xEFF, t.sp, t.pc)) = some (0x03, 0x02, 0xF00, 0x400) := by
  decide

/-- CF5. -/
theorem test_call_overflow :
    after (run ((State.reset.setPc 0x300).setSp 0xF00) 0x2400) (fun t => (t.sp, t.pc, t.fault)) =
      some (0xF00, 0x302, some ⟨.stackOverflow 0x300 0xF00, 0x300⟩) := by decide

/-- CF6. -/
theorem test_ret :
    after (run (put ((State.reset.setPc 0x400).setSp 0xEA2) 0xEA0 [0x03, 0x02]) 0x00EE)
      (fun t => (t.sp, t.pc)) = some (0xEA0, 0x302) := by decide

/-- CF7. -/
theorem test_ret_underflow :
    after (run State.reset 0x00EE) (fun t => (t.pc, t.sp, t.fault)) =
      some (0x202, 0xEA0, some ⟨.stackUnderflow 0x200 0xEA0, 0x200⟩) := by decide

/-- CF9. -/
theorem test_jpV0_not_wrapped :
    after (run (State.reset.setReg 0 0xFF) 0xBFFF) (fun t => t.pc) = some 0x10FE := by decide

/-- CF10, CF11. -/
theorem test_seImm :
    after (run (State.reset.setReg 3 0x42) 0x3342) (fun t => t.pc) = some 0x204 ∧
    after (run (State.reset.setReg 3 0x41) 0x3342) (fun t => t.pc) = some 0x202 := by decide

/-- CF12, CF13. -/
theorem test_sneImm :
    after (run (State.reset.setReg 3 0x42) 0x4342) (fun t => t.pc) = some 0x202 ∧
    after (run (State.reset.setReg 3 0x41) 0x4342) (fun t => t.pc) = some 0x204 := by decide

/-- CF14, CF15. -/
theorem test_seReg :
    after (run (v12 7 7) 0x5120) (fun t => t.pc) = some 0x204 ∧
    after (run (v12 7 8) 0x5120) (fun t => t.pc) = some 0x202 := by decide

/-- CF16, CF17. -/
theorem test_sneReg :
    after (run (v12 7 8) 0x9120) (fun t => t.pc) = some 0x204 ∧
    after (run (v12 7 7) 0x9120) (fun t => t.pc) = some 0x202 := by decide

/-! ## Register loads and the ALU (42_register_alu.md) -/

/-- AL1. -/
theorem test_ldImm : after (run State.reset 0x6A2F) (fun t => t.reg 0xA) = some 0x2F := by decide

/-- AL2, AL3. -/
theorem test_addImm_no_flag :
    after (run ((State.reset.setReg 0 0xFF).setReg vf 0x55) 0x7002) (fun t => (t.reg 0, t.reg vf)) =
      some (0x01, 0x55) ∧
    after (run (State.reset.setReg vf 0xFF) 0x7F01) (fun t => t.reg vf) = some 0x00 := by decide

/-- AL4. -/
theorem test_ldReg : after (run (v12 0 0x55) 0x8120) (fun t => t.reg 1) = some 0x55 := by decide

/-- AL5 to AL7. -/
theorem test_logic :
    after (run ((v12 0x0F 0xF0).setReg vf 0x77) 0x8121) (fun t => (t.reg 1, t.reg vf)) =
      some (0xFF, 0x77) ∧
    after (run (v12 0x3C 0x0F) 0x8122) (fun t => t.reg 1) = some 0x0C ∧
    after (run (v12 0xFF 0x0F) 0x8123) (fun t => t.reg 1) = some 0xF0 := by decide

/-- AL9, AL11: the carry, and VF as a source. -/
theorem test_addReg :
    after (run (v12 0x80 0x80) 0x8124) (fun t => (t.reg 1, t.reg vf)) = some (0, 1) ∧
    after (run ((State.reset.setReg 1 1).setReg vf 0xFF) 0x81F4) (fun t => (t.reg 1, t.reg vf)) =
      some (0, 1) := by decide

/-- AL12: VF as destination, under both orders. -/
theorem test_addReg_vf :
    after (run ((State.reset.setReg vf 0xF0).setReg 1 0x20) 0x8F14) (fun t => t.reg vf) = some 0x10 ∧
    after (run (withParams ((State.reset.setReg vf 0xF0).setReg 1 0x20) ⟨true, .bit3, .resultThenFlag⟩)
      0x8F14) (fun t => t.reg vf) = some 0x01 := by decide

/-- L1-5, AL13: strictly greater. -/
theorem test_sub :
    after (run (v12 3 5) 0x8125) (fun t => (t.reg 1, t.reg vf)) = some (0xFE, 0) ∧
    after (run (v12 7 7) 0x8125) (fun t => (t.reg 1, t.reg vf)) = some (0, 0) := by decide

/-- AL15: VF as destination, under both orders. -/
theorem test_sub_vf :
    after (run ((State.reset.setReg vf 5).setReg 1 3) 0x8F15) (fun t => t.reg vf) = some 2 ∧
    after (run (withParams ((State.reset.setReg vf 5).setReg 1 3) ⟨true, .bit3, .resultThenFlag⟩) 0x8F15)
      (fun t => t.reg vf) = some 1 := by decide

/-- AL16: the flag of X, the shift of Y. -/
theorem test_shr :
    after (run (v12 0x05 0x0C) 0x8126) (fun t => (t.reg vf, t.reg 2, t.reg 1)) = some (1, 0x06, 0x05) := by
  decide

/-- AL19, AL20: VF as Y and as X. -/
theorem test_shr_vf :
    after (run ((State.reset.setReg 1 1).setReg vf 0xFE) 0x81F6) (fun t => t.reg vf) = some 0 ∧
    after (run ((State.reset.setReg vf 3).setReg 2 0x10) 0x8F26) (fun t => (t.reg vf, t.reg 2)) =
      some (1, 0x08) := by decide

/-- AL21, AL22: the result goes into Y. -/
theorem test_subn :
    after (run (v12 3 5) 0x8127) (fun t => (t.reg 2, t.reg vf, t.reg 1)) = some (2, 1, 3) ∧
    after (run (v12 5 3) 0x8127) (fun t => (t.reg 2, t.reg vf)) = some (0xFE, 0) := by decide

/-- AL24: VF as Y, under both orders. -/
theorem test_subn_vf :
    after (run ((State.reset.setReg 1 0x10).setReg vf 0x30) 0x81F7) (fun t => t.reg vf) = some 0x20 ∧
    after (run (withParams ((State.reset.setReg 1 0x10).setReg vf 0x30) ⟨true, .bit3, .resultThenFlag⟩)
      0x81F7) (fun t => t.reg vf) = some 1 := by decide

/-- AL28, AL29: the three readings of the flag. -/
theorem test_shl :
    after (run (v12 0xF0 0) 0x810E) (fun t => (t.reg 1, t.reg vf)) = some (0xE0, 0) ∧
    after (run (withParams (v12 0xF0 0) ⟨true, .bit7, .flagThenResult⟩) 0x810E) (fun t => t.reg vf) = some 1 ∧
    after (run (withParams (v12 1 0) ⟨true, .lowNibbleNonzero, .flagThenResult⟩) 0x810E)
      (fun t => (t.reg 1, t.reg vf)) = some (2, 1) := by decide

/-- AL31. -/
theorem test_shl_vf : after (run (State.reset.setReg vf 0x0C) 0x8F0E) (fun t => t.reg vf) = some 2 := by decide

/-- AL32, for the write that CXNN makes of a drawn byte. -/
theorem test_rnd_mask : (State.reset.writeRandom 0xAB 3 0x0F).reg 3 = 0x0B := by decide

/-- AL33: with NN = 0 the result is 0 whatever is drawn, and the draw is counted. -/
theorem test_rnd_zero : (exec (.rnd 3 0) State.reset) =
    .next (State.reset.writeRandom (Config.drawByte 0) 3 0) ∧
    (State.reset.writeRandom (Config.drawByte 0) 3 0).reg 3 = 0 := by
  refine ⟨rfl, ?_⟩
  simp [State.writeRandom]

/-! ## Display (43_display.md) -/

/-- DI1, DI2 at the two ends of the framebuffer. -/
theorem test_cls :
    after (run (put (put (State.reset.setReg vf 0x33) 0xF00 [0xFF]) 0xFFF [0xFF]) 0x00E0)
      (fun t => (t.mem.read 0xF00, t.mem.read 0xFFF, t.redraw, t.reg vf)) = some (0, 0, true, 0x33) := by
  decide +kernel

/-- A state with I = 0x300 and sprite bytes there. -/
def sprite (bs : List Byte) : State := put (State.reset.setI 0x300) 0x300 bs

/-- L1-7 (as C10 corrects it), DI6, DI13: columns wrap, rows wrap, the other bit order. -/
theorem test_drw_pixels :
    after (run ((sprite [0xFF]).setReg 0 60) 0xD011)
      (fun t => (t.mem.read 0xF07, t.mem.read 0xF00, t.reg vf)) = some (0xF0, 0x0F, 0) ∧
    after (run ((sprite [0x80, 0x80]).setReg 1 31) 0xD012)
      (fun t => (t.mem.read 0xFF8, t.mem.read 0xF00)) = some (0x01, 0x01) ∧
    after (run (withParams (sprite [0x80]) ⟨false, .bit3, .flagThenResult⟩) 0xD011)
      (fun t => t.mem.read 0xF00) = some 0x80 := by decide +kernel

/-- DI8, DI9, DI12, DI14: no rows; a collision; VF as a coordinate; a sprite inside the framebuffer. -/
theorem test_drw_flag :
    after (run (State.reset.setReg vf 1) 0xD010) (fun t => (t.reg vf, t.redraw)) = some (0, false) ∧
    after (run (put (sprite [0xC0]) 0xF00 [0x01]) 0xD011) (fun t => (t.mem.read 0xF00, t.reg vf, t.redraw)) =
      some (0x02, 1, true) ∧
    after (run ((sprite [0x80]).setReg vf 3) 0xDF01) (fun t => (t.mem.read 0xF00, t.reg vf)) =
      some (0x08, 0) ∧
    after (run ((put (State.reset.setI 0xF00) 0xF00 [0x80]).setReg 0 8) 0xD012)
      (fun t => (t.mem.read 0xF01, t.mem.read 0xF09, t.reg vf)) = some (0x01, 0, 0) := by decide +kernel

/-! ## Keys (44_keys.md) -/

/-- `reset` with bytes of the key window. -/
def keysState (lo hi : Byte) : State := put (State.reset) 0x050 [lo, hi]

/-- KY5, KY9. -/
theorem test_skp :
    after (run ((keysState 0x20 0).setReg 3 5) 0xE39E) (fun t => t.pc) = some 0x204 ∧
    after (run (State.reset.setReg 3 0x10) 0xE39E) (fun t => t.pc) = some 0x202 := by decide

/-- KY10: key index 16 reads the reserved byte 0x052. -/
theorem test_skp_reserved :
    after (run ((put State.reset 0x052 [0x01]).setReg 3 0x10) 0xE39E) (fun t => t.pc) = some 0x204 := by decide

/-- KY7, KY8. -/
theorem test_sknp :
    after (run ((keysState 0x20 0).setReg 3 4) 0xE3A1) (fun t => t.pc) = some 0x204 ∧
    after (run ((keysState 0x20 0).setReg 3 5) 0xE3A1) (fun t => t.pc) = some 0x202 := by decide

/-- KY12, KY13: the lowest of two keys; VF as destination. -/
theorem test_ldKey :
    after (run (keysState 0x08 0x02) 0xF30A) (fun t => (t.reg 3, t.pc)) = some (3, 0x202) ∧
    after (run (keysState 0 0x04) 0xFF0A) (fun t => t.reg vf) = some 0x0A := by decide

/-- KY15: only keys 0 to 15 are looked at. -/
theorem test_ldKey_waits :
    after (run (put State.reset 0x052 [0xFF]) 0xF30A) (fun t => (t.pc, t.reg 3)) = some (0x200, 0) := by decide

/-! ## Timers (45_timers.md) -/

/-- TM1, TM2. -/
theorem test_delay_timer :
    after (run (State.reset.setReg 5 0x3C) 0xF515) (fun t => t.dt) = some 0x3C ∧
    after (run (State.reset.setDt 0x3C) 0xF507) (fun t => t.reg 5) = some 0x3C := by decide

/-- TM5: writing 0 over a nonzero ST emits no tone. -/
theorem test_sound_timer :
    said (transact .step ((State.reset.setSt 5).withFetchWord 16 0xF218)) (fun t r => (t.st, r)) =
      some (0, .ok) := by decide

/-! ## The address register and memory (46_index_memory.md) -/

/-- MX1. -/
theorem test_ldI : after (run State.reset 0xA2F0) (fun t => t.iReg) = some 0x2F0 := by decide

/-- MX2, MX3. -/
theorem test_addI :
    after (run ((State.reset.setI 0xFF0).setReg 1 0x0F) 0xF11E) (fun t => t.iReg) = some 0xFFF ∧
    after (run ((State.reset.setI 0xFF0).setReg 1 0x10) 0xF11E) (fun t => (t.iReg, t.pc, t.fault)) =
      some (0xFF0, 0x202, some ⟨.addressOverflow 0x200 0x1000, 0x200⟩) := by decide

/-- MX5, MX8. -/
theorem test_ldFont :
    after (run (State.reset.setReg 4 0x0A) 0xF429) (fun t => t.iReg) = some 0x032 ∧
    after (run (State.reset.setReg 4 0xFF) 0xF429) (fun t => t.iReg) = some 0x4FB := by decide

/-- MX9, MX13. -/
theorem test_ldBcd :
    after (run ((State.reset.setI 0x300).setReg 0 0xFE) 0xF033)
      (fun t => (t.mem.readBytes 0x300 3, t.iReg)) = some ([2, 5, 4], 0x300) ∧
    after (run ((State.reset.setI 0xFFE).setReg 0 7) 0xF033) (fun t => (t.fault, t.mem.read 0xFFF)) =
      some (some ⟨.memoryOutOfRange 0x1000, 0x200⟩, 0) := by decide

/-- MX14, MX17. -/
theorem test_store :
    after (run ((((State.reset.setI 0x300).setReg 0 1).setReg 1 2).setReg 2 3) 0xF255)
      (fun t => (t.mem.readBytes 0x300 4, t.iReg)) = some ([1, 2, 3, 0], 0x300) ∧
    after (run (State.reset.setI 0xFF1) 0xFF55) (fun t => t.fault) =
      some (some ⟨.memoryOutOfRange 0x1000, 0x200⟩) := by decide

/-- MX20, MX21. -/
theorem test_load :
    after (run State.reset 0xF465) (fun t => (t.reg 0, t.reg 1, t.reg 4, t.reg 5)) =
      some (0xF0, 0x90, 0xF0, 0) ∧
    after (run (State.reset.setI 0xFFC) 0xF465) (fun t => t.fault) =
      some (some ⟨.memoryOutOfRange 0x1000, 0x200⟩) := by decide

/-! ## Bits, reset, the launch and the host's transactions -/

/-- L1-1, L1-2. -/
theorem test_bits :
    (Memory.setBit [] 0xF00 133 true).read 0xF10 = 0x20 ∧
    (Memory.setBit [(0xF10, 0xFF)] 0xF00 133 false).read 0xF10 = 0xDF ∧
    bitWrite [] 0xF00 133 2 = .error (.invalidBitValue 2) ∧
    bitRead [] 0xF00 2048 = .error (.bitIndexOutOfRange 2048) := by decide

/-- A write of what an unlisted address reads as removes the cell. -/
theorem test_memory_canonical :
    Memory.write [(0x300, 5)] 0x300 0 = [] ∧ Memory.write [] 0x000 0xF0 = [] ∧
    Memory.write [(0x300, 5)] 0x200 1 = [(0x200, 1), (0x300, 5)] := by decide

/-- 00_scope.md R15: the zero launch with no program starts in `State.reset`. -/
theorem test_zero_launch : (zeroLaunch []).bare = State.reset := by decide +kernel

/-- EH7: 3233 bytes are refused. -/
theorem test_launch_refused :
    (zeroLaunch (List.replicate 3233 0)).start = .refused (.programTooLong 3233) := by
  have h : (zeroLaunch (List.replicate 3233 0)).program.length = 3233 := List.length_replicate
  rw [Launch.start_of_gt (by rw [h]; decide), h]

/-- KY1 to KY4. -/
theorem test_keys :
    said (transact (.keyDown 5) State.reset) (fun t _ => (t.mem.read 0x050, t.keys)) =
      some (0x20, [false, false, false, false, false, true, false, false, false, false, false, false, false,
        false, false, false]) ∧
    said (transact (.keyDown 0xC) State.reset) (fun t _ => t.mem.read 0x051) = some 0x10 ∧
    said (transact (.keyUp 5) (keysState 0x20 0)) (fun t _ => t.mem) = some [] := by decide

/-- TM4, TM6, TM8, TM9. -/
theorem test_tick :
    said (transact .tick (State.reset.setSt 1)) (fun t r => (t.st, r)) = some (0, .ticked true) ∧
    said (transact .tick (State.reset.setDt 0xFF)) (fun t r => (t.dt, t.st, r)) =
      some (0xFE, 0, .ticked false) ∧
    said (transact .tick (faulted.setDt 2)) (fun t _ => (t.dt, t.fault == faulted.fault)) =
      some (1, true) := by decide

/-- EH1, EH4, EH5. -/
theorem test_reports :
    said (transact .step (State.reset.withFetchWord 16 0x0123)) (fun _ r => r) =
      some (.faultReport ⟨.unknownInstruction 0x200 0x0123, 0x200⟩) ∧
    said (transact .ackRedraw (State.reset.setRedraw true)) (fun t _ => t.redraw) = some false ∧
    said (transact .redrawNeeded State.reset) (fun _ r => r) = some (.flag false) := by decide

/-! ## Witnesses: hypotheses that hold together, each clause at a boundary -/

theorem test_witness_DecodeOfEncodeIsTheInstruction : (Instr.drw 15 15 15).WellFormed = true := by decide

theorem test_witness_DecodeAgreesWithTheOpcodeMap :
    (⟨0xF065, 0xF0FF⟩ : OpcodeRow) ∈ opcodeMap ∧ decode 0xDFFF = .ok (.drw 15 15 15) := by decide

theorem test_witness_DispatchSelectsByGroup :
    (fieldG 0x0FE0 = 0x0 ∧ fieldNN 0x0FE0 = 0xE0 ∧ fieldNN 0x0FEE = 0xEE ∧ fieldNN 0x0000 ∉ [0xE0, 0xEE]) ∧
    (fieldG 0x8FF0 = 0x8 ∧ fieldN 0x8FF0 = 0x0 ∧ fieldN 0x8FF7 = 0x7 ∧ fieldN 0x8FFE = 0xE ∧
      fieldN 0x8FF8 = 0x8 ∧ fieldN 0x8FFF = 0xF) ∧
    (fieldG 0xEF9E = 0xE ∧ fieldNN 0xEF9E = 0x9E ∧ fieldNN 0xEFA1 = 0xA1 ∧ fieldNN 0xE000 ∉ [0x9E, 0xA1]) ∧
    (fieldG 0xFF07 = 0xF ∧ fieldNN 0xFF07 = 0x07 ∧ fieldNN 0xF065 = 0x65 ∧
      fieldNN 0xFFFF ∉ [0x07, 0x0A, 0x15, 0x18, 0x1E, 0x29, 0x33, 0x55, 0x65]) ∧
    fieldG 0x1000 = 0x1 ∧ fieldG 0xDFFF = 0xD := by decide

/-- The last address a word may be fetched from. -/
theorem test_witness_StepRunsTheDecodedInstruction :
    let s := (State.reset.setPc 0xFFE).withFetchWord 16 0x1FFF
    s.fault = none ∧ s.pc.toNat = 0xFFE ∧
    decode (wordOf (s.mem.read s.pc.toNat) (s.mem.read (s.pc.toNat + 1))) = .ok (.jp 0xFFF) := by decide

theorem test_witness_UnknownWordRaises :
    let s := State.reset.setPc 0xFFE
    s.fault = none ∧ s.pc.toNat = 0xFFE ∧
    (0x0000 : Word) = wordOf (s.mem.read s.pc.toNat) (s.mem.read (s.pc.toNat + 1)) ∧
    ∀ i, decode 0x0000 ≠ .ok i := by
  refine ⟨by decide, by decide, by decide, fun i h => ?_⟩
  rw [show decode 0x0000 = .error .unknownGroup0 by decide] at h
  cases h

theorem test_witness_FetchPastMemoryRaises :
    (State.reset.setPc 0xFFF).fault = none ∧ 0xFFE < (State.reset.setPc 0xFFF).pc.toNat := by decide

theorem test_witness_FaultedCoreHasNoMove :
    faulted.fault = some ⟨.unknownInstruction 0x200 0x0123, 0x200⟩ := by decide

/-- A fault of the execute phase, of the decode phase and of the fetch. -/
theorem test_witness_EveryFaultIsPrecise :
    after (run State.reset 0x00EE) (fun t => t.fault) = some (some ⟨.stackUnderflow 0x200 0xEA0, 0x200⟩) ∧
    after (step State.reset) (fun t => t.fault) = some (some ⟨.unknownInstruction 0x200 0, 0x200⟩) ∧
    after (step (State.reset.setPc 0xFFF)) (fun t => t.fault) =
      some (some ⟨.memoryOutOfRange 0x1000, 0xFFF⟩) := by decide

/-- Each of the four cases: a full stack, an empty stack, an I and an access just past 0xFFF. -/
theorem test_witness_OnlyListedInstructionsRaise :
    let s := (State.reset.setI 0xFFF).setReg 0 1
    (s.setSp 0xF00).Inv ∧ s.Inv ∧ s.fault = none ∧
    after (exec (.call 0) (s.setSp 0xF00)) (fun t => t.fault) =
      some (some ⟨.stackOverflow 0x1FE 0xF00, 0x1FE⟩) ∧
    after (exec .ret s) (fun t => t.fault) = some (some ⟨.stackUnderflow 0x1FE 0xEA0, 0x1FE⟩) ∧
    after (exec (.addI 0) s) (fun t => t.fault) = some (some ⟨.addressOverflow 0x1FE 0x1000, 0x1FE⟩) ∧
    after (exec (.drw 0 0 2) s) (fun t => t.fault) = some (some ⟨.memoryOutOfRange 0x1000, 0x1FE⟩) ∧
    after (exec (.load 1) s) (fun t => t.fault) = some (some ⟨.memoryOutOfRange 0x1000, 0x1FE⟩) := by decide

theorem test_witness_NoInstructionStops : State.reset.fault = none := by decide

/-- A call that takes sp to its last value. -/
theorem test_witness_StepKeepsTheInvariant :
    let s := ((State.reset.setSp 0xEFE).setI 0xFFF).withFetchWord 16 0x2FFF
    s.Inv ∧ after (step s) (fun t => (t.sp, t.iReg)) = some (0xF00, 0xFFF) := by decide

theorem test_witness_EveryRunKeepsTheInvariant :
    State.reset.Inv ∧
    ran [.keyDown 15, .step, .tick, .ackRedraw] State.reset (fun t => t.mem.read 0x051) = some 0x80 := by
  decide

/-- A program of exactly 3232 bytes and one of 3233; the first and last font byte, program byte and other byte. -/
theorem test_witness_LaunchGivesTheResetState :
    (zeroLaunch (List.replicate 3232 0)).program.length ≤ 3232 ∧
    3232 < (zeroLaunch (List.replicate 3233 0)).program.length ∧ (0 < 80 ∧ 79 < 80) ∧
    3231 < (zeroLaunch (List.replicate 3232 0)).program.length ∧
    (80 ≤ 80 ∧ 80 ≤ 0xFFF ∧ 0x1FF < 0x200) ∧ 0x200 + 3232 ≤ 0xEA0 ∧ 0xFFF ≤ 0xFFF := by
  have h1 : (zeroLaunch (List.replicate 3232 0)).program.length = 3232 := List.length_replicate
  have h2 : (zeroLaunch (List.replicate 3233 0)).program.length = 3233 := List.length_replicate
  rw [h1, h2]
  decide

theorem test_witness_LaunchMeetsTheInvariant :
    ∃ t, (zeroLaunch (List.replicate 3232 0)).start = .next t :=
  ⟨_, Launch.start_of_le (Nat.le_of_eq List.length_replicate)⟩

theorem test_witness_EqualMemoriesAreEqualData :
    Memory.wf [(0x000, 0), (0xFFF, 1)] = true ∧
    Memory.write (Memory.write [] 0xFFF 1) 0 0 = [(0x000, 0), (0xFFF, 1)] := by decide

/-- The last address a 16-byte access fits at, and the first it does not. -/
theorem test_witness_MemoryAccessIsBigEndianAndBounded :
    Memory.wf [(0x300, 1)] = true ∧ 1 ≤ 16 ∧ 0xFF0 + 16 ≤ 0x1000 ∧ 256 ^ 16 - 1 < 256 ^ 16 ∧
    0x1000 < 0xFF1 + 16 ∧
    (memWrite [(0x300, 1)] 0xFFE 2 0xFFEE).map (fun m => (m.read 0xFFE, m.read 0xFFF)) = .ok (0xFF, 0xEE) := by
  decide

theorem test_witness_BitStorageWritesOneBit :
    Memory.wf [(0xFFF, 1)] = true ∧ 0xF00 + 2047 / 8 ≤ 0xFFF ∧ 0xFFF < 0xF00 + 2048 / 8 ∧ 1 ≤ 1 ∧ 1 < 2 := by
  decide

theorem test_witness_PixelsAndKeysNeverRaise :
    (63 < 64 ∧ 31 < 32 ∧ 1 ≤ 1 ∧ bitRead [] 0xF00 (31 * 64 + 63) = .ok false) ∧
    255 ≤ 255 ∧ bitRead [] 0x050 255 = .ok false := by decide

/-- The two bytes at the end of memory. -/
theorem test_witness_StoreIsSeenByTheNextFetch :
    let s := ((State.reset.setPc 0xFFE).setI 0xFFE).setReg 1 0xE0
    s.mem.wf = true ∧ s.iReg = s.pc ∧ s.pc.toNat + (1 : Reg).val ≤ 0xFFF ∧ (1 : Reg) ≤ 1 ∧
    after (exec (.store 1) s) (fun t => t.mem.read 0xFFF) = some 0xE0 := by decide

theorem test_witness_RegistersChangeOnlyInTheirDestinations :
    after (exec (.addReg 0 1) (State.reset.setReg 1 7)) (fun t => (t.reg 0, t.reg 1)) = some (7, 7) ∧
    after (exec (.load 15) State.reset) (fun t => t.reg 15) = some 0xF0 := by decide

theorem test_witness_SpecialsChangeOnlyByTheirWriters :
    after (exec .cls (State.reset.setRedraw true)) (fun t => t.redraw) = some true ∧
    after (exec .ret State.reset) (fun t => t.sp) = some 0xEA0 := by decide +kernel

theorem test_witness_MemoryChangesOnlyInTheStoreWindow :
    after (exec (.call 0) (State.reset.setSp 0xEFE)) (fun t => (t.mem.read 0xEFE, t.mem.read 0xF00)) =
      some (0x02, 0) := by decide

/-- Targets 0xFFF and 0x10FE: the lowest and the highest that the next step cannot fetch. -/
theorem test_witness_JpV0AddsV0ToNNN :
    State.reset.fault = none ∧
    after (exec (.jpV0 0xFFF) State.reset) (fun t => decide (0xFFE < t.pc.toNat)) = some true ∧
    after (exec (.jpV0 0xFFF) (State.reset.setReg 0 0xFF)) (fun t => t.pc) = some 0x10FE := by decide

theorem test_witness_CallPushesTheReturnAddress :
    (State.reset.setSp 0xEFE).mem.wf = true ∧ (State.reset.setSp 0xEFE).sp.toNat + 2 = 0xF00 := by decide

theorem test_witness_RetPopsPc :
    (0xEA2 ≤ (State.reset.setSp 0xEA2).sp.toNat ∧ (State.reset.setSp 0xEA2).sp.toNat ≤ 0x1000) ∧
    (State.reset.setSp 0x1000).sp.toNat = 0x1000 := by decide

/-- Each clause at the first value it covers; 0xEFE, 0xEA2 and 0x1000 are under none. -/
theorem test_witness_StackBoundsRaise :
    0xF00 < (State.reset.setSp 0xEFF).sp.toNat + 2 ∧ (State.reset.setSp 0xEA1).sp.toNat < 0xEA2 ∧
    0x1000 < (State.reset.setSp 0x1001).sp.toNat ∧
    after (exec .ret (State.reset.setSp 0x1001)) (fun t => t.fault) =
      some (some ⟨.memoryOutOfRange 0x1000, 0x1FE⟩) := by decide

theorem test_witness_CallThenRetReturns :
    let s := State.reset.setSp 0xEFE
    s.mem.wf = true ∧ 0xEA0 ≤ s.sp.toNat ∧ s.sp.toNat + 2 = 0xF00 ∧
    after (exec (.call 0xFFF) s) (fun t => t.pc) = some 0xFFF := by decide

/-- The three clauses on VF: another destination, and VF under each order. -/
theorem test_witness_AddSetsCarry :
    (14 : Reg) ≠ vf ∧ (15 : Reg) = vf ∧ State.reset.params.aluAliasOrder = .flagThenResult ∧
    (withParams State.reset ⟨true, .bit3, .resultThenFlag⟩).params.aluAliasOrder = .resultThenFlag := by decide

/-- L1-4: a sum of 256 and a sum below it. -/
theorem test_witness_AddSetsCarry_values :
    after (exec (.addReg 1 2) (v12 0xFF 1)) (fun t => (t.reg 1, t.reg vf)) = some (0, 1) ∧
    after (exec (.addReg 1 2) (v12 0xFE 1)) (fun t => (t.reg 1, t.reg vf)) = some (0xFF, 0) := by decide

theorem test_witness_SubSetsStrictlyGreater :
    (14 : Reg) ≠ vf ∧ (15 : Reg) = vf ∧ State.reset.params.aluAliasOrder = .flagThenResult ∧
    (withParams State.reset ⟨true, .bit7, .resultThenFlag⟩).params.aluAliasOrder = .resultThenFlag ∧
    after (exec (.sub 1 2) (v12 8 7)) (fun t => (t.reg 1, t.reg vf)) = some (1, 1) := by decide

theorem test_witness_SubnWritesRegisterY :
    (14 : Reg) ≠ vf ∧ (15 : Reg) = vf ∧ State.reset.params.aluAliasOrder = .flagThenResult ∧
    (withParams State.reset ⟨true, .bit3, .resultThenFlag⟩).params.aluAliasOrder = .resultThenFlag ∧
    after (exec (.subn 1 2) (v12 7 8)) (fun t => (t.reg 2, t.reg vf)) = some (1, 1) := by decide

theorem test_witness_ShrShiftsRegisterY : (14 : Reg) ≠ vf ∧ (15 : Reg) = vf := by decide

theorem test_witness_ShlTakesItsFlagByParameter :
    State.reset.params.shlFlag = .bit3 ∧
    (withParams State.reset ⟨true, .lowNibbleNonzero, .flagThenResult⟩).params.shlFlag = .lowNibbleNonzero ∧
    (withParams State.reset ⟨true, .bit7, .flagThenResult⟩).params.shlFlag = .bit7 ∧
    (14 : Reg) ≠ vf ∧ (15 : Reg) = vf := by decide

/-- The premises NN = 0 and NN = 0xFF hold for those two bytes, which differ. -/
theorem test_witness_RndMasksTheDrawnByte : (0 : Byte) ≠ 0xFF := by decide

theorem test_witness_ClsClearsTheScreen :
    State.reset.mem.wf = true ∧ 0xF00 ≤ 0xF00 ∧ 0xFFF ≤ 0xFFF ∧ 2047 < 2048 := by decide

/-- 15 rows that end at 0xFFF; a sprite pixel over a set pixel; and a sprite that lies over no set pixel. -/
theorem test_witness_DrwXorsTheSprite :
    (State.reset.setI 0xFF1).mem.wf = true ∧ (State.reset.setI 0xFF1).iAddr + 15 = 0x1000 ∧
    (put (sprite [0xC0]) 0xF00 [0x01]).mem.wf = true ∧
    (put (sprite [0xC0]) 0xF00 [0x01]).spriteAt 0 0 1 0 0 = true ∧
    (put (sprite [0xC0]) 0xF00 [0x01]).mem.pixel 0 0 = true ∧
    ((sprite [0x01]).setReg 0 63).spriteAt 0 1 1 6 0 = true ∧
    (∀ px py, px < 64 → py < 32 → State.reset.spriteAt 0 0 0 px py = true →
      State.reset.mem.pixel px py = false) := by
  refine ⟨by decide, by decide, by decide, by decide, by decide, by decide, fun px py _ _ h => ?_⟩
  simp [State.spriteAt] at h

/-- 15 rows that end just below the framebuffer, twice; a pixel that the first draw sets. -/
theorem test_witness_DrwTwiceRestoresTheScreen :
    let s := put (State.reset.setI 0xEF1) 0xEFF [0x80]
    s.mem.wf = true ∧ s.iAddr + 15 = 0xF00 ∧ (0 : Reg) ≠ vf ∧ (14 : Reg) ≠ vf ∧
    after (exec (.drw 0 14 15) s) (fun t => after (exec (.drw 0 14 15) t) (fun u => u.reg vf)) =
      some (some 1) ∧
    s.spriteAt 0 14 15 0 14 = true ∧ s.mem.pixel 0 14 = false := by decide +kernel

/-- Each access one byte too far; at one address less none of the four clauses applies. -/
theorem test_witness_AccessPastMemoryRaises :
    0xFFF < (State.reset.setI 0xFFF).iAddr + 2 - 1 ∧ 0xFFF < (State.reset.setI 0xFFE).iAddr + 2 ∧
    0xFFF < (State.reset.setI 0xFF1).iAddr + (15 : Reg).val ∧
    after (exec (.drw 0 0 1) (State.reset.setI 0xFFF)) (fun t => t.fault) = some none ∧
    after (exec (.ldBcd 0) (State.reset.setI 0xFFD)) (fun t => t.fault) = some none ∧
    after (exec (.store 15) (State.reset.setI 0xFF0)) (fun t => t.fault) = some none := by decide +kernel

/-- No key pressed; and key 15 alone. -/
theorem test_witness_KeyWaitRepeatsOrTakesTheLowestKey :
    (∀ k, k ≤ 15 → State.reset.mem.key k = false) ∧ (keysState 0 0x80).mem.key 15 = true ∧
    (∀ j, j < 15 → (keysState 0 0x80).mem.key j = false) := by decide

/-- The largest sum that is stored, and the smallest that raises. -/
theorem test_witness_AddIStaysInMemory :
    ((State.reset.setI 0xFF0).setReg 1 0x0F).iReg.toNat + 0x0F ≤ 0xFFF ∧
    0xFFF < ((State.reset.setI 0xFF0).setReg 1 0x10).iReg.toNat + 0x10 := by decide

theorem test_witness_BcdStoresTheDecimalDigits :
    (State.reset.setI 0xFFD).mem.wf = true ∧ (State.reset.setI 0xFFD).iAddr + 2 = 0xFFF := by decide

theorem test_witness_StoreWritesRegistersZeroToX :
    (State.reset.setI 0xFF0).mem.wf = true ∧ (State.reset.setI 0xFF0).iAddr + (15 : Reg).val = 0xFFF ∧
    (15 : Reg) ≤ 15 := by decide

theorem test_witness_LoadReadsRegistersZeroToX :
    (State.reset.setI 0xFF1).iAddr + (14 : Reg).val = 0xFFF ∧ (14 : Reg) ≤ 14 ∧ (14 : Reg) < 15 := by decide

theorem test_witness_ToneOnlyWhenATickEndsTheSound :
    said (transact .tick (State.reset.setSt 1)) (fun _ r => r) = some (.ticked true) := by decide

/-- Keys 15 and 16, and key 0 pressed and released already. -/
theorem test_witness_KeyTransactionsSetOneKey :
    State.reset.mem.wf = true ∧ 15 ≤ 15 ∧ 15 < 16 ∧ (keysState 1 0).mem.key 0 = true ∧
    State.reset.mem.key 0 = false ∧ transact (.keyDown 16) State.reset = .refused (.keyIndexOutOfRange 16) :=
  ⟨by decide, by decide, by decide, by decide, by decide, rfl⟩

theorem test_witness_QueriesChangeNothing :
    State.reset.keys.length = 16 ∧ 15 < 16 ∧ 63 < 64 ∧ 31 < 32 ∧ 0xFFF ≤ 0xFFF := by decide

theorem test_witness_FaultIsNeverCleared :
    faulted.fault = some ⟨.unknownInstruction 0x200 0x0123, 0x200⟩ ∧
    ran [.keyDown 2, .tick, .ackRedraw] faulted (fun t => t.mem.read 0x050) = some 0x04 := by decide

theorem test_witness_FinishedStateStays :
    ((State.reset.setPc 0xFFE).withFetchWord 16 0x1FFE).finished = true := by decide

end Sys2Proof.Tests
end

section
/-! SUPPORT. What the shared accesses and the branching instructions can do, one inversion lemma each. -/

namespace Sys2Proof.Machine

/-! ## Accesses that may raise -/

/-- An instruction that loads goes on with the bytes, or raises `MemoryOutOfRange` (20_memory.md R63). -/
theorem State.orRaise_loadBytes_cases {s t : State} {m : Memory} {a n : Nat} {f : List Byte → State}
    (h : s.orRaise (loadBytes m a n) f = .next t) :
    ((n = 0 ∨ a + n ≤ 0x1000) ∧ t = f (m.readBytes a n)) ∨
    (n ≠ 0 ∧ 0x1000 < a + n ∧ t = s.raise (.memoryOutOfRange (if a > 0xFFF then a else 0x1000))) := by
  obtain ⟨hn, e⟩ | ⟨hn, ha, e⟩ := loadBytes_cases m a n <;> rw [e] at h
  · exact .inl ⟨hn, by simpa using h.symm⟩
  · exact .inr ⟨hn, ha, by simpa using h.symm⟩

/-- An instruction that stores goes on with the memory written, or raises `MemoryOutOfRange`
(20_memory.md R64). -/
theorem State.orRaise_storeBytes_cases {s t : State} {m : Memory} {a : Nat} {bs : List Byte}
    {f : Memory → State} (h : s.orRaise (storeBytes m a bs) f = .next t) :
    ((bs = [] ∨ a + bs.length ≤ 0x1000) ∧ t = f (m.writeBytes a bs)) ∨
    (bs ≠ [] ∧ 0x1000 < a + bs.length ∧
      t = s.raise (.memoryOutOfRange (if a > 0xFFF then a else 0x1000))) := by
  obtain ⟨hb, e⟩ | ⟨hb, ha, e⟩ := storeBytes_cases m a bs <;> rw [e] at h
  · exact .inl ⟨hb, by simpa using h.symm⟩
  · exact .inr ⟨hb, ha, by simpa using h.symm⟩

/-! ## Instructions that branch -/

/-- CALL raises where the stack is full, else pushes pc and jumps (41_control_flow.md R141, D11). -/
theorem exec_call_cases {nnn : Addr12} {s t : State} (h : exec (.call nnn) s = .next t) :
    (0xF00 < s.sp.toNat + 2 ∧ t = s.raise (.stackOverflow s.instrAddr s.sp)) ∨
    (s.sp.toNat + 2 ≤ 0xF00 ∧
      t = ((s.setMem (s.mem.writeBytes s.sp.toNat (beBytes 2 s.pc.toNat))).setSp (s.sp + 2)).setPc
        (addrOf nnn)) := by
  simp only [exec, execCall, Config.stackEnd] at h
  split at h
  · next hsp => exact .inl ⟨hsp, by simpa using h.symm⟩
  · next hsp =>
    rw [memWrite_of_le (by omega)] at h
    exact .inr ⟨by omega, by simpa using h.symm⟩

/-- RET raises where the stack is empty or its slot is past memory, else pops pc (41_control_flow.md R142,
D11; assumption log 12). -/
theorem exec_ret_cases {s t : State} (h : exec .ret s = .next t) :
    (s.sp.toNat < 0xEA2 ∧ t = s.raise (.stackUnderflow s.instrAddr s.sp)) ∨
    (0x1000 < s.sp.toNat ∧ ∃ a, 0xFFF < a ∧ t = s.raise (.memoryOutOfRange a)) ∨
    (0xEA2 ≤ s.sp.toNat ∧ s.sp.toNat ≤ 0x1000 ∧
      t = (s.setSp (s.sp - 2)).setPc
        (BitVec.ofNat 16 (beNat (s.mem.readBytes (s.sp.toNat - 2) 2)))) := by
  simp only [exec, execRet, Config.stackBase] at h
  split at h
  · next hsp => exact .inl ⟨hsp, by simpa using h.symm⟩
  · next hsp =>
    have hsub : (s.sp - 2).toNat = s.sp.toNat - 2 := by bv_omega
    rw [hsub] at h
    by_cases hle : s.sp.toNat ≤ 0x1000
    · rw [memRead_of_le (by omega)] at h
      exact .inr (.inr ⟨by omega, hle, by simpa using h.symm⟩)
    · rw [memRead_past (by omega) (by omega)] at h
      refine .inr (.inl ⟨by omega, _, ?_, by simpa using h.symm⟩)
      split <;> omega

/-- FX1E raises where the sum leaves memory, else I takes the sum (46_index_memory.md R261, D12). -/
theorem exec_addI_cases {x : Reg} {s t : State} (h : exec (.addI x) s = .next t) :
    (0xFFF < s.iAddr + (s.reg x).toNat ∧
      t = s.raise (.addressOverflow s.instrAddr (s.iAddr + (s.reg x).toNat))) ∨
    (s.iAddr + (s.reg x).toNat ≤ 0xFFF ∧
      t = s.setI (BitVec.ofNat 16 (s.iAddr + (s.reg x).toNat))) := by
  simp only [exec, execAddI, Config.lastAddr] at h
  split at h
  · next hsum => exact .inl ⟨hsum, by simpa using h.symm⟩
  · next hsum => exact .inr ⟨by omega, by simpa using h.symm⟩

/-- FX0A goes back to itself where no key is pressed, else takes the lowest (44_keys.md R232). -/
theorem exec_ldKey_cases {x : Reg} {s t : State} (h : exec (.ldKey x) s = .next t) :
    (s.mem.lowestKey = none ∧ t = s.setPc (s.pc - 2)) ∨
    (∃ k, s.mem.lowestKey = some k ∧ t = s.setReg x (BitVec.ofNat 8 k)) := by
  simp only [exec, execLdKey] at h
  split at h
  · next hk => exact .inl ⟨hk, by simpa using h.symm⟩
  · next k hk => exact .inr ⟨k, hk, by simpa using h.symm⟩

end Sys2Proof.Machine
end

section
/-! SUPPORT. The frames of every instruction, for the registers and for the special registers. -/

namespace Sys2Proof.Machine

/-! ## General registers (10_state.md R22, 42_register_alu.md R183) -/

/-- A flag and a shifted register written leave every other register. -/
theorem State.flagThenShift_reg_kept (s : State) (flag : Bool) {r q : Reg} (shift : Byte → Byte)
    (hr : q ≠ r) (hvf : q ≠ vf) : (s.flagThenShift flag r shift).reg q = s.reg q := by
  rw [State.flagThenShift, State.setReg_reg_ne _ _ _ _ hr, State.setReg_reg_ne _ _ _ _ hvf]

/-- A register outside an instruction's destinations reads as before. -/
theorem exec_reg_of_notMem_destRegs {i : Instr} {s t : State} (h : exec i s = .next t) {r : Reg}
    (hr : r ∉ destRegs i) : t.reg r = s.reg r := by
  cases i with
  | cls | jp _ | seImm _ _ | sneImm _ _ | seReg _ _ | sneReg _ _ | ldI _ | jpV0 _ | skp _ | sknp _
  | ldToDt _ | ldToSt _ | ldFont _ => cases h; simp
  | ldImm x _ | addImm x _ | ldReg x _ | or x _ | and x _ | xor x _ | rnd x _ | ldFromDt x =>
    cases h
    exact State.setReg_reg_ne _ _ _ _ (List.ne_of_not_mem_cons hr)
  | addReg d _ | sub d _ | subn _ d =>
    cases h
    simp only [destRegs, List.mem_cons, List.not_mem_nil, or_false, not_or] at hr
    exact State.writeFlagged_reg_kept _ _ _ hr.1 hr.2
  | shr _ d | shl d =>
    cases h
    simp only [destRegs, List.mem_cons, List.not_mem_nil, or_false, not_or] at hr
    exact State.flagThenShift_reg_kept _ _ _ hr.1 hr.2
  | call _ => obtain ⟨_, rfl⟩ | ⟨_, rfl⟩ := exec_call_cases h <;> simp
  | ret => obtain ⟨_, rfl⟩ | ⟨_, _, _, rfl⟩ | ⟨_, _, rfl⟩ := exec_ret_cases h <;> simp
  | addI _ => obtain ⟨_, rfl⟩ | ⟨_, rfl⟩ := exec_addI_cases h <;> simp
  | ldKey x =>
    obtain ⟨_, rfl⟩ | ⟨_, _, rfl⟩ := exec_ldKey_cases h
    · simp
    · exact State.setReg_reg_ne _ _ _ _ (List.ne_of_not_mem_cons hr)
  | drw _ _ _ =>
    obtain ⟨_, rfl⟩ | ⟨_, _, rfl⟩ := State.orRaise_loadBytes_cases h
    · exact State.drawSprite_reg _ _ _ _ (List.ne_of_not_mem_cons hr)
    · simp
  | ldBcd _ | store _ => obtain ⟨_, rfl⟩ | ⟨_, _, rfl⟩ := State.orRaise_storeBytes_cases h <;> simp
  | load _ =>
    obtain ⟨_, rfl⟩ | ⟨_, _, rfl⟩ := State.orRaise_loadBytes_cases h
    · exact State.setRegs_reg_kept _ _ _ hr
    · simp

/-- Settles O24: each instruction writes registers only by `setReg`, `writeFlagged`, `flagThenShift`,
`drawSprite` and `setRegs`, whose targets `destRegs` lists. -/
theorem registersChangeOnlyInTheirDestinations :
    Obligations.RegistersChangeOnlyInTheirDestinations :=
  fun _ _ _ h _ hr => exec_reg_of_notMem_destRegs h hr

/-! ## Special registers (10_state.md R25 to R33, 60_exceptions.md R301) -/

/-- A raise changes only the fault record. -/
theorem SpecialsKeptBut.raise {es : List Special} (hes : Special.fault ∈ es) (s : State) (k : FaultKind) :
    SpecialsKeptBut es s (s.raise k) := by
  simp [SpecialsKeptBut, hes]

/-- Drawing a sprite changes no special register but `redraw`. -/
theorem SpecialsKeptBut.drawSprite {es : List Special} (hes : Special.redraw ∈ es) (s : State)
    (x y : Reg) (sprite : List Byte) : SpecialsKeptBut es s (s.drawSprite x y sprite) := by
  simp [SpecialsKeptBut, hes, State.drawSprite]

/-- A special register that an instruction does not list is unchanged. -/
theorem exec_specialsKeptBut_destSpecials {i : Instr} {s t : State} (h : exec i s = .next t) :
    SpecialsKeptBut (destSpecials i) s t := by
  cases i with
  | cls | jp _ | seImm _ _ | sneImm _ _ | seReg _ _ | sneReg _ _ | jpV0 _ | skp _ | sknp _ | ldI _
  | ldFont _ | ldToDt _ | ldToSt _ | ldImm _ _ | addImm _ _ | ldReg _ _ | or _ _ | and _ _ | xor _ _
  | ldFromDt _ | addReg _ _ | sub _ _ | subn _ _ =>
    cases h
    simp [SpecialsKeptBut, destSpecials]
  | shr _ _ | shl _ => cases h; simp [SpecialsKeptBut, State.flagThenShift]
  | rnd _ _ => cases h; simp [SpecialsKeptBut, destSpecials, State.writeRandom]
  | call _ =>
    obtain ⟨_, rfl⟩ | ⟨_, rfl⟩ := exec_call_cases h
    · exact .raise (by simp [destSpecials]) _ _
    · simp [SpecialsKeptBut, destSpecials]
  | ret =>
    obtain ⟨_, rfl⟩ | ⟨_, _, _, rfl⟩ | ⟨_, _, rfl⟩ := exec_ret_cases h
    · exact .raise (by simp [destSpecials]) _ _
    · exact .raise (by simp [destSpecials]) _ _
    · simp [SpecialsKeptBut, destSpecials]
  | addI _ =>
    obtain ⟨_, rfl⟩ | ⟨_, rfl⟩ := exec_addI_cases h
    · exact .raise (by simp [destSpecials]) _ _
    · simp [SpecialsKeptBut, destSpecials]
  | ldKey _ =>
    obtain ⟨_, rfl⟩ | ⟨_, _, rfl⟩ := exec_ldKey_cases h <;> simp [SpecialsKeptBut, destSpecials]
  | drw _ _ _ =>
    obtain ⟨_, rfl⟩ | ⟨_, _, rfl⟩ := State.orRaise_loadBytes_cases h
    · exact .drawSprite (by simp [destSpecials]) _ _ _ _
    · exact .raise (by simp [destSpecials]) _ _
  | ldBcd _ | store _ =>
    obtain ⟨_, rfl⟩ | ⟨_, _, rfl⟩ := State.orRaise_storeBytes_cases h
    · simp [SpecialsKeptBut]
    · exact .raise (by simp [destSpecials]) _ _
  | load _ =>
    obtain ⟨_, rfl⟩ | ⟨_, _, rfl⟩ := State.orRaise_loadBytes_cases h
    · simp [SpecialsKeptBut]
    · exact .raise (by simp [destSpecials]) _ _

/-- An instruction keeps `redraw` set: the two that write it, 00E0 and DXYN, never clear it
(10_state.md R33). -/
theorem exec_redraw_of_redraw {i : Instr} {s t : State} (h : exec i s = .next t)
    (hs : s.redraw = true) : t.redraw = true := by
  by_cases hi : Special.redraw ∈ destSpecials i
  · cases i with
    | cls => cases h; rfl
    | drw x y n =>
      obtain ⟨_, rfl⟩ | ⟨_, _, rfl⟩ := State.orRaise_loadBytes_cases h
      · simp [State.drawSprite, hs]
      · exact hs
    | _ => simp [destSpecials] at hi
  · obtain ⟨_, _, _, _, _, hredraw, _⟩ := exec_specialsKeptBut_destSpecials h
    rw [hredraw hi, hs]

/-- Settles O25: the frame of the special registers, with `redraw` never cleared. -/
theorem specialsChangeOnlyByTheirWriters : Obligations.SpecialsChangeOnlyByTheirWriters :=
  fun _ _ _ h => ⟨exec_specialsKeptBut_destSpecials h, exec_redraw_of_redraw h⟩

end Sys2Proof.Machine
end

section
/-! SUPPORT. The invariant: every instruction and every step keeps it, and a launch starts in it. -/

namespace Sys2Proof.Machine

/-! ## Memory stays canonical (20_memory.md R60) -/

/-- An instruction with no store window leaves the memory as it is. -/
theorem exec_mem_of_storesNothing {i : Instr} {s t : State} (h : exec i s = .next t)
    (hi : (storeWindow s i).2 = 0) : t.mem = s.mem := by
  cases i with
  | cls | call _ | drw _ _ _ | ldBcd _ | store _ => simp [storeWindow] at hi
  | jp _ | seImm _ _ | sneImm _ _ | seReg _ _ | sneReg _ _ | jpV0 _ | skp _ | sknp _ | ldI _
  | ldFont _ | ldToDt _ | ldToSt _ | ldImm _ _ | addImm _ _ | ldReg _ _ | or _ _ | and _ _ | xor _ _
  | ldFromDt _ | addReg _ _ | sub _ _ | subn _ _ => cases h; simp
  | shr _ _ | shl _ | rnd _ _ => cases h; rfl
  | ret => obtain ⟨_, rfl⟩ | ⟨_, _, _, rfl⟩ | ⟨_, _, rfl⟩ := exec_ret_cases h <;> rfl
  | addI _ => obtain ⟨_, rfl⟩ | ⟨_, rfl⟩ := exec_addI_cases h <;> rfl
  | ldKey _ => obtain ⟨_, rfl⟩ | ⟨_, _, rfl⟩ := exec_ldKey_cases h <;> rfl
  | load _ => obtain ⟨_, rfl⟩ | ⟨_, _, rfl⟩ := State.orRaise_loadBytes_cases h <;> simp

/-- An instruction that stores bytes at an address, or raises, keeps memory canonical. -/
theorem State.orRaise_storeBytes_wf {s t : State} {a : Nat} {bs : List Byte} (hm : s.mem.wf = true)
    (h : s.orRaise (storeBytes s.mem a bs) s.setMem = .next t) : t.mem.wf = true := by
  obtain ⟨rfl | hle, rfl⟩ | ⟨_, _, rfl⟩ := State.orRaise_storeBytes_cases h
  · exact hm
  · exact Memory.wf_writeBytes hm bs hle
  · exact hm

/-- Every instruction keeps memory canonical and inside the image. -/
theorem exec_mem_wf {i : Instr} {s t : State} (h : exec i s = .next t) (hm : s.mem.wf = true) :
    t.mem.wf = true := by
  cases i with
  | cls => cases h; exact Memory.clearFramebuffer_wf hm
  | call nnn =>
    obtain ⟨_, rfl⟩ | ⟨hsp, rfl⟩ := exec_call_cases h
    · exact hm
    · exact Memory.wf_writeBytes hm _ (by rw [beBytes_length]; omega)
  | drw x y n =>
    obtain ⟨_, rfl⟩ | ⟨_, _, rfl⟩ := State.orRaise_loadBytes_cases h
    · exact State.drawSprite_wf hm x y _
    · exact hm
  | ldBcd _ | store _ => exact State.orRaise_storeBytes_wf hm h
  | _ => rw [exec_mem_of_storesNothing h rfl]; exact hm

/-! ## sp stays in the stack region (10_state.md R28, 92_eei_decisions.md D11) -/

/-- Every instruction keeps sp a slot boundary of the stack region: CALL and RET raise at its ends, and no
other instruction writes sp. -/
theorem exec_stackOk {i : Instr} {s t : State} (h : exec i s = .next t) (hs : s.StackOk) :
    t.StackOk := by
  obtain ⟨hlo, hhi, heven⟩ := hs
  by_cases hi : Special.sp ∈ destSpecials i
  · cases i with
    | call nnn =>
      obtain ⟨_, rfl⟩ | ⟨hsp, rfl⟩ := exec_call_cases h
      · exact ⟨hlo, hhi, heven⟩
      · have hadd : (s.sp + 2).toNat = s.sp.toNat + 2 := by bv_omega
        simp only [State.StackOk, State.setPc_sp, State.setSp_sp, hadd]
        omega
    | ret =>
      obtain ⟨_, rfl⟩ | ⟨_, _, _, rfl⟩ | ⟨hsp, _, rfl⟩ := exec_ret_cases h
      · exact ⟨hlo, hhi, heven⟩
      · exact ⟨hlo, hhi, heven⟩
      · have hsub : (s.sp - 2).toNat = s.sp.toNat - 2 := by bv_omega
        simp only [State.StackOk, State.setPc_sp, State.setSp_sp, hsub]
        omega
    | _ => simp [destSpecials] at hi
  · obtain ⟨_, _, hkept, _⟩ := exec_specialsKeptBut_destSpecials h
    rw [State.StackOk, hkept hi]
    exact ⟨hlo, hhi, heven⟩

/-! ## I takes no new value above 0xFFF (10_state.md R27, 92_eei_decisions.md D12) -/

/-- A 12-bit address keeps its value in 16 bits (30_encoding.md R91). -/
theorem addrOf_toNat (nnn : Addr12) : (addrOf nnn).toNat = nnn.toNat := by
  unfold addrOf
  bv_omega

/-- The glyph address of a byte is its unreduced product with 5 (46_index_memory.md R262). -/
theorem glyphAddr_toNat (v : Byte) : (glyphAddr v).toNat = v.toNat * 5 := by
  have hv := v.isLt
  simp [glyphAddr, wordOfByte]
  omega

/-- An instruction that writes I gives it a value up to 0xFFF; the others keep it. -/
theorem exec_iKeptOrInMemory {i : Instr} {s t : State} (h : exec i s = .next t) :
    IKeptOrInMemory s t := by
  by_cases hi : Special.i ∈ destSpecials i
  · cases i with
    | ldI nnn => cases h; exact .inr (by rw [State.setI_iReg, addrOf_toNat]; omega)
    | ldFont x => cases h; exact .inr (by rw [State.setI_iReg, glyphAddr_toNat]; omega)
    | addI x =>
      obtain ⟨_, rfl⟩ | ⟨hsum, rfl⟩ := exec_addI_cases h
      · exact .inl rfl
      · right
        rw [State.setI_iReg, BitVec.toNat_ofNat]
        exact (Nat.mod_le _ _).trans hsum
    | _ => simp [destSpecials] at hi
  · obtain ⟨_, hkept, _⟩ := exec_specialsKeptBut_destSpecials h
    exact .inl (hkept hi)

/-! ## Steps, reset and launch -/

/-- Settles O13: the invariant speaks of memory, sp and I, which the advance and a raise leave, and which
`exec` keeps. -/
theorem stepKeepsTheInvariant : Obligations.StepKeepsTheInvariant := by
  intro s t hs h
  obtain ⟨_, ⟨_, _, _, _, hexec⟩ | ⟨_, _, _, _, rfl⟩ | ⟨_, _, rfl⟩⟩ := step_cases h
  · exact ⟨⟨exec_mem_wf hexec hs.1, exec_stackOk hexec hs.2⟩,
      exec_iKeptOrInMemory (s := s.advance) hexec⟩
  · exact ⟨hs, .inl rfl⟩
  · exact ⟨hs, .inl rfl⟩

/-- Settles O14: no cell of memory is listed at reset, and sp is the first slot. -/
theorem resetMeetsTheInvariant : Obligations.ResetMeetsTheInvariant :=
  ⟨rfl, by decide⟩

/-- Settles O16: the values are the definition's own. -/
theorem resetHasTheSpecsValues : Obligations.ResetHasTheSpecsValues :=
  ⟨rfl, rfl, rfl, rfl⟩

/-- Settles O18: a program that is not refused fits into the image, and its copy keeps memory canonical. -/
theorem launchMeetsTheInvariant : Obligations.LaunchMeetsTheInvariant := by
  intro l t h
  by_cases hle : l.program.length ≤ 3232
  · rw [Launch.start_of_le hle] at h
    cases h
    exact ⟨Memory.wf_writeBytes l.bare_mem_wf _ (by omega), resetMeetsTheInvariant.2⟩
  · rw [Launch.start_of_gt (by omega)] at h
    cases h

end Sys2Proof.Machine
end

section
/-! SUPPORT. What a transaction can do, the induction over a run, and the fault record along it. -/

namespace Sys2Proof.Machine

/-- A key transaction with a move sets the bit of a key up to 15 (60_exceptions.md R320, D20). -/
theorem State.keyTo_cases {s t : State} {k : Nat} {pressed : Bool} (h : s.keyTo k pressed = .next t) :
    k ≤ 15 ∧ t = s.setMem (s.mem.setBit Config.keyBase k pressed) := by
  unfold State.keyTo at h
  split at h
  · next hk => exact ⟨hk, by simpa using h.symm⟩
  · cases h

/-- What a transaction can do to the state: a step, a key bit, a tick, an acknowledgement, or nothing
(10_state.md R39). -/
theorem transact_cases {tr : Transaction} {s t : State} {out : Response}
    (h : transact tr s = .next (t, out)) :
    (tr = .step ∧ step s = .next t) ∨
    (∃ k pressed, k ≤ 15 ∧ t = s.setMem (s.mem.setBit Config.keyBase k pressed)) ∨
    (tr = .tick ∧ t = s.tick) ∨ (tr = .ackRedraw ∧ t = s.ackRedraw) ∨ t = s := by
  cases tr with
  | step =>
    simp only [transact] at h
    split at h <;> cases h
    exact .inl ⟨rfl, ‹_›⟩
  | keyDown k =>
    simp only [transact] at h
    split at h <;> cases h
    exact .inr (.inl ⟨k, true, State.keyTo_cases ‹_›⟩)
  | keyUp k =>
    simp only [transact] at h
    split at h <;> cases h
    exact .inr (.inl ⟨k, false, State.keyTo_cases ‹_›⟩)
  | tick => cases h; exact .inr (.inr (.inl ⟨rfl, rfl⟩))
  | ackRedraw => cases h; exact .inr (.inr (.inr (.inl ⟨rfl, rfl⟩)))
  | keys | framebuffer | redrawNeeded | readState | disassemble _ =>
    cases h; exact .inr (.inr (.inr (.inr rfl)))

/-- A run that goes through makes its first transaction and then the rest. -/
theorem runTransactions_cons {tr : Transaction} {ts : List Transaction} {s t : State}
    {outs : List Response} (h : runTransactions (tr :: ts) s = .next (t, outs)) :
    ∃ s' out outs', transact tr s = .next (s', out) ∧ runTransactions ts s' = .next (t, outs') ∧
      outs = out :: outs' := by
  simp only [runTransactions] at h
  split at h
  · cases h
  · cases h
  · next s' out hfirst =>
    split at h <;> cases h
    next outs' hrest => exact ⟨s', out, outs', hfirst, hrest, rfl⟩

/-- What every transaction keeps, every run keeps. -/
theorem runTransactions_induction {P : State → Prop}
    (hP : ∀ {tr s t out}, transact tr s = .next (t, out) → P s → P t) {ts : List Transaction}
    {s t : State} {outs : List Response} (h : runTransactions ts s = .next (t, outs)) (hs : P s) :
    P t := by
  induction ts generalizing s outs with
  | nil => cases h; exact hs
  | cons tr ts ih =>
    obtain ⟨s', out, outs', hfirst, hrest, _⟩ := runTransactions_cons h
    exact ih hrest (hP hfirst hs)

/-- A recorded fault stays: a step has no move, and no other transaction writes the record (D14). -/
theorem transact_fault_of_fault {r : FaultRecord} {tr : Transaction} {s t : State} {out : Response}
    (h : transact tr s = .next (t, out)) (hs : s.fault = some r) : t.fault = some r := by
  obtain ⟨_, hstep⟩ | ⟨_, _, _, rfl⟩ | ⟨_, rfl⟩ | ⟨_, rfl⟩ | rfl := transact_cases h
  · have hnone : s.fault = none := (step_cases hstep).1
    rw [hs] at hnone
    cases hnone
  all_goals exact hs

/-- Settles O59, by the induction over a run's transactions. -/
theorem faultIsNeverCleared : Obligations.FaultIsNeverCleared :=
  fun _ _ _ _ _ hs h => runTransactions_induction transact_fault_of_fault h hs

end Sys2Proof.Machine
end

section
/-! SUPPORT. The invariant along a run of the host's transactions. -/

namespace Sys2Proof.Machine

/-- Every transaction keeps the invariant and gives I no new value above 0xFFF: a step by
`stepKeepsTheInvariant`, a key event because its byte is inside the image, and the others because they write
neither memory, sp nor I. -/
theorem transact_keeps_inv {tr : Transaction} {s t : State} {out : Response}
    (h : transact tr s = .next (t, out)) (hs : s.Inv) : t.Inv ∧ IKeptOrInMemory s t := by
  obtain ⟨_, hstep⟩ | ⟨k, _, hk, rfl⟩ | ⟨_, rfl⟩ | ⟨_, rfl⟩ | rfl := transact_cases h
  · exact stepKeepsTheInvariant s t hs hstep
  · have hkey : Config.keyBase + k / 8 ≤ 0xFFF := by simp only [Config.keyBase]; omega
    exact ⟨⟨Memory.wf_setBit hs.1 _ hkey, hs.2⟩, .inl rfl⟩
  all_goals exact ⟨hs, .inl rfl⟩

theorem IKeptOrInMemory.trans {s t u : State} (hst : IKeptOrInMemory s t) (htu : IKeptOrInMemory t u) :
    IKeptOrInMemory s u := by
  obtain hkept | hle := htu
  · rw [IKeptOrInMemory, hkept]; exact hst
  · exact .inr hle

/-- Settles O15, by the induction over a run's transactions; what each keeps is the invariant together with
what I may hold relative to the run's first state. -/
theorem everyRunKeepsTheInvariant : Obligations.EveryRunKeepsTheInvariant := by
  intro _ s _ _ hs hrun
  refine runTransactions_induction (P := fun u => u.Inv ∧ IKeptOrInMemory s u) ?_ hrun ⟨hs, .inl rfl⟩
  rintro _ _ _ _ htr ⟨hinv, hi⟩
  obtain ⟨hinv', hi'⟩ := transact_keeps_inv htr hinv
  exact ⟨hinv', hi.trans hi'⟩

end Sys2Proof.Machine
end

section
/-! SUPPORT. The memory image (20_memory.md): canonical data, multi-byte access, the bit storage, and the bytes each
instruction stores to. -/

namespace Sys2Proof.Machine

/-! ## Canonical data (R60) -/

/-- A canonical memory differs at its first listed address from one that lists only higher addresses: its cell is
not what an unlisted address reads as. -/
theorem Memory.read_head_ne_of_above {k : Nat} {c : Byte} {rest m : Memory}
    (hw : Memory.wf ((k, c) :: rest) = true) (hm : Memory.above k m) :
    Memory.read ((k, c) :: rest) k ≠ m.read k := by
  obtain ⟨_, hc, _, _⟩ := (Memory.wf_cons _ _ _).1 hw
  rw [Memory.read_cons, if_pos rfl, Memory.read_of_above hm]
  exact hc

/-- In a canonical memory every listed address is above any address below the first one. -/
theorem Memory.above_of_lt_head {j k : Nat} {c : Byte} {rest : Memory} (hjk : j < k)
    (hw : Memory.wf ((k, c) :: rest) = true) : Memory.above j ((k, c) :: rest) := by
  obtain ⟨_, _, hab, _⟩ := (Memory.wf_cons _ _ _).1 hw
  exact List.forall_mem_cons.2 ⟨hjk, Memory.above_mono hjk.le hab⟩

/-- Behind a first cell at one address, memories that read the same have tails that read the same: at that address
both tails read as unlisted, elsewhere the cell does not matter. -/
theorem Memory.read_tail_eq {k : Nat} {c c' : Byte} {rest rest' : Memory} (hab : Memory.above k rest)
    (hab' : Memory.above k rest') {a : Nat}
    (h : Memory.read ((k, c) :: rest) a = Memory.read ((k, c') :: rest') a) :
    rest.read a = rest'.read a := by
  by_cases ha : k = a
  · subst ha; rw [Memory.read_of_above hab, Memory.read_of_above hab']
  · simpa only [Memory.read_cons, if_neg ha] using h

/-- Settles O19, by induction on both lists: their first addresses agree, for at the lower of two the memories would
read differently; then the cells agree, and the tails by induction. -/
theorem equalMemoriesAreEqualData : Obligations.EqualMemoriesAreEqualData := by
  intro m
  induction m with
  | nil =>
    intro m' _ hw' h
    cases m' with
    | nil => rfl
    | cons e' rest' =>
      obtain ⟨k', c'⟩ := e'
      obtain ⟨hk', _⟩ := (Memory.wf_cons _ _ _).1 hw'
      exact absurd (h k' hk').symm (Memory.read_head_ne_of_above hw' (by simp [Memory.above]))
  | cons e rest ih =>
    obtain ⟨k, c⟩ := e
    intro m' hw hw' h
    obtain ⟨hk, _, hab, hrest⟩ := (Memory.wf_cons _ _ _).1 hw
    cases m' with
    | nil => exact absurd (h k hk) (Memory.read_head_ne_of_above hw (by simp [Memory.above]))
    | cons e' rest' =>
      obtain ⟨k', c'⟩ := e'
      obtain ⟨hk', _, hab', hrest'⟩ := (Memory.wf_cons _ _ _).1 hw'
      obtain hlt | rfl | hgt := lt_trichotomy k k'
      · exact absurd (h k hk) (Memory.read_head_ne_of_above hw (Memory.above_of_lt_head hlt hw'))
      · have hcell : c = c' := by simpa [Memory.read_cons] using h k hk
        have htail : rest = rest' := ih rest' hrest hrest' fun a ha => Memory.read_tail_eq hab hab' (h a ha)
        rw [hcell, htail]
      · exact absurd (h k' hk').symm (Memory.read_head_ne_of_above hw' (Memory.above_of_lt_head hgt hw))

/-! ## Multi-byte access (R63 to R65) -/

/-- Byte `j` of the value that bytes of memory spell is the byte at that offset. -/
theorem Memory.byte_beNat_readBytes (m : Memory) (a : Nat) {n j : Nat} (hj : j < n) :
    BitVec.ofNat 8 (beNat (m.readBytes a n) >>> (8 * (n - 1 - j))) = m.read (a + j) := by
  have hbytes : beBytes n (beNat (m.readBytes a n)) = m.readBytes a n := by
    simpa using beBytes_beNat (m.readBytes a n)
  calc BitVec.ofNat 8 (beNat (m.readBytes a n) >>> (8 * (n - 1 - j)))
      = (beBytes n (beNat (m.readBytes a n)))[j]'(by simpa) := (beBytes_getElem _ _ _ _).symm
    _ = (m.readBytes a n)[j]'(by simpa) := List.getElem_of_eq hbytes _
    _ = m.read (a + j) := Memory.readBytes_getElem _ _ _ _ _

/-- Bytes written inside the image read back. -/
theorem Memory.readBytes_writeBytes {m : Memory} (hm : m.wf = true) {a : Nat} (bs : List Byte)
    (h : a + bs.length ≤ 0x1000) : (m.writeBytes a bs).readBytes a bs.length = bs := by
  apply List.ext_getElem (Memory.readBytes_length _ _ _)
  intro j _ hj
  rw [Memory.readBytes_getElem, Memory.read_writeBytes_inside hm bs h j hj]

/-- A value written inside the image reads back. -/
theorem memRead_writeBytes_beBytes {m : Memory} (hm : m.wf = true) {a n v : Nat} (h : a + n ≤ 0x1000)
    (hv : v < 256 ^ n) : memRead (m.writeBytes a (beBytes n v)) a n = .ok v := by
  have hback := Memory.readBytes_writeBytes hm (beBytes n v) (by simpa using h)
  rw [beBytes_length] at hback
  rw [memRead_of_le h, hback, beNat_beBytes, Nat.mod_eq_of_lt hv]

/-- Settles O20: inside the image an access moves the value's big-endian bytes, and past it the bound check names
the lowest bad address. -/
theorem memoryAccessIsBigEndianAndBounded : Obligations.MemoryAccessIsBigEndianAndBounded := by
  intro m a n v hn _
  refine ⟨fun h => ?_, fun hm h hv => ?_, fun h => ?_⟩
  · refine ⟨_, memRead_of_le h, ?_, fun j => Memory.byte_beNat_readBytes m a⟩
    simpa using beNat_lt (m.readBytes a n)
  · refine ⟨_, memWrite_of_le h, memRead_writeBytes_beBytes hm h hv, fun j hj => ?_, fun b hb => ?_⟩
    · rw [Memory.read_writeBytes_inside hm _ (by simpa using h) j (by simpa using hj), beBytes_getElem]
    · exact Memory.read_writeBytes_outside _ _ _ (by simpa using hb)
  · have hn0 : n ≠ 0 := by omega
    refine ⟨if a > 0xFFF then a else 0x1000, ?_, ?_, ?_, ?_, memRead_past hn0 h, memWrite_past hn0 h⟩ <;>
      split <;> omega

/-! ## The bit storage (R67) -/

theorem bitRead_of_le (m : Memory) {base i : Nat} (h : base + i / 8 ≤ 0xFFF) :
    bitRead m base i = .ok (m.bit base i) := if_neg (Nat.not_lt.2 h)

theorem bitRead_past (m : Memory) {base i : Nat} (h : 0xFFF < base + i / 8) :
    bitRead m base i = .error (.bitIndexOutOfRange i) := if_pos h

theorem bitWrite_of_le (m : Memory) {base i v : Nat} (hv : v ≤ 1) (h : base + i / 8 ≤ 0xFFF) :
    bitWrite m base i v = .ok (m.setBit base i (v == 1)) := by
  rw [bitWrite, if_neg (Nat.not_lt.2 hv), if_neg (Nat.not_lt.2 h)]

theorem bitWrite_past (m : Memory) {base i v : Nat} (hv : v ≤ 1) (h : 0xFFF < base + i / 8) :
    bitWrite m base i v = .error (.bitIndexOutOfRange i) := by
  rw [bitWrite, if_neg (Nat.not_lt.2 hv), if_pos h]

theorem bitWrite_of_one_lt (m : Memory) (base i : Nat) {v : Nat} (hv : 1 < v) :
    bitWrite m base i v = .error (.invalidBitValue v) := if_pos hv

/-- Settles O21: a good write is `Memory.setBit`, which touches one bit of one byte, and each error has its own
clause of the two checks. -/
theorem bitStorageWritesOneBit : Obligations.BitStorageWritesOneBit := by
  refine ⟨fun m base i v hm h hv => ?_, fun m _ _ h => bitRead_of_le m h,
    fun m base i _ hv => bitWrite_of_one_lt m base i hv, fun m _ _ _ hv h => bitWrite_past m hv h,
    fun m _ _ h => bitRead_past m h⟩
  refine ⟨_, bitWrite_of_le m hv h, ?_, fun j hj => ?_, fun a ha => Memory.read_setBit_ne m base i _ ha⟩
  · rw [bitRead_of_le _ h, Memory.bit_setBit hm, if_pos rfl]
  · rw [Memory.bit_setBit hm, if_neg hj]

/-- Settles O22: the highest pixel is in byte 0xFFF and the highest key in byte 0x06F, both inside the image. -/
theorem pixelsAndKeysNeverRaise : Obligations.PixelsAndKeysNeverRaise := by
  refine ⟨fun m px py v hx hy hv => ?_, fun m k hk => bitRead_of_le m (by omega)⟩
  have hbyte : 0xF00 + (py * 64 + px) / 8 ≤ 0xFFF := by omega
  exact ⟨bitRead_of_le m hbyte, bitWrite_of_le m hv hbyte⟩

/-! ## The bytes an instruction stores to (R72) -/

/-- Memory that is the same everywhere is the same outside any window. -/
theorem BytesKeptOutside.of_mem_eq {s t : State} (h : t.mem = s.mem) (lo n : Nat) :
    BytesKeptOutside lo n s t := fun a _ => by rw [h]

/-- A sequence of writes keeps every byte outside it. -/
theorem BytesKeptOutside.of_writeBytes {s t : State} {lo n : Nat} {bs : List Byte} (hn : bs.length = n)
    (h : t.mem = s.mem.writeBytes lo bs) : BytesKeptOutside lo n s t := by
  intro a ha
  rw [h, Memory.read_writeBytes_outside _ _ _ (by rwa [hn])]

/-- An instruction that stores bytes at an address, or raises, keeps every byte outside them. -/
theorem BytesKeptOutside.of_orRaise_storeBytes {s t : State} {lo n : Nat} {bs : List Byte}
    (hn : bs.length = n) (h : s.orRaise (storeBytes s.mem lo bs) s.setMem = .next t) :
    BytesKeptOutside lo n s t := by
  obtain ⟨_, rfl⟩ | ⟨_, _, rfl⟩ := State.orRaise_storeBytes_cases h
  · exact .of_writeBytes hn rfl
  · exact .of_mem_eq rfl _ _

/-- Settles O26: CALL, FX33 and FX55 write consecutive bytes, 00E0 and DXYN only the framebuffer, and the others no
memory. -/
theorem memoryChangesOnlyInTheStoreWindow : Obligations.MemoryChangesOnlyInTheStoreWindow := by
  intro i s t h
  cases i with
  | call nnn =>
    obtain ⟨_, rfl⟩ | ⟨_, rfl⟩ := exec_call_cases h
    · exact .of_mem_eq rfl _ _
    · exact .of_writeBytes (beBytes_length _ _) rfl
  | cls => cases h; exact fun _ ha => Memory.clearFramebuffer_outside ha
  | drw x y n =>
    obtain ⟨_, rfl⟩ | ⟨_, _, rfl⟩ := State.orRaise_loadBytes_cases h
    · exact fun _ ha => State.drawSprite_read s x y _ ha
    · exact .of_mem_eq rfl _ _
  | ldBcd x => exact .of_orRaise_storeBytes rfl h
  | store x => exact .of_orRaise_storeBytes (State.regValues_length s x) h
  | _ => exact .of_mem_eq (exec_mem_of_storesNothing h rfl) _ _

/-! ## Stores and the next fetch (R78) -/

/-- Inside memory FX55 stores register `r` at I + r, for each r up to X (46_index_memory.md R264). -/
theorem exec_store_read {x r : Reg} {s t : State} (hm : s.mem.wf = true) (hi : s.iAddr + x.val ≤ 0xFFF)
    (hr : r ≤ x) (h : exec (.store x) s = .next t) : t.mem.read (s.iAddr + r.val) = s.reg r := by
  have hlen := State.regValues_length s x
  have hrx : r.val ≤ x.val := hr
  obtain ⟨_, rfl⟩ | ⟨_, hpast, _⟩ := State.orRaise_storeBytes_cases h
  · rw [State.setMem_mem, Memory.read_writeBytes_inside hm _ (by omega) r.val (by omega),
      State.regValues_getElem]
  · omega

/-- Settles O23: FX55 keeps pc, and the two bytes that the fetch reads there are V0 and V1 as stored. -/
theorem storeIsSeenByTheNextFetch : Obligations.StoreIsSeenByTheNextFetch := by
  intro x s t hm hipc hx h1 h
  have hi : s.iAddr = s.pc.toNat := by rw [State.iAddr, hipc]
  have hpc : t.pc = s.pc := (exec_specialsKeptBut_destSpecials h).1 (by simp [destSpecials])
  have hx1 : 1 ≤ x.val := h1
  have hV0 := exec_store_read hm (by omega) (Fin.zero_le x) h
  have hV1 := exec_store_read hm (by omega) h1 h
  rw [hi] at hV0 hV1
  rw [State.fetch_of_le (by rw [hpc]; omega), hpc]
  exact congrArg₂ (fun hi lo => Except.ok (wordOf hi lo)) hV0 hV1

end Sys2Proof.Machine
end

section
/-! SUPPORT. The opcode map (30_encoding.md R103) and the decoder: a word that matches a row decodes to that row's
instruction, and every word matches a row or is one of the unknown words of R95 to R101. -/

namespace Sys2Proof

/-! ## A row and the operand fields of a word -/

/-- The instruction of the same row whose operands are the fields of `w` (30_encoding.md R91, R93). -/
def Instr.withFieldsOf (i : Instr) (w : Word) : Instr :=
  match i with
  | .cls => .cls
  | .ret => .ret
  | .jp _ => .jp (fieldNNN w)
  | .call _ => .call (fieldNNN w)
  | .seImm _ _ => .seImm (fieldX w) (fieldNN w)
  | .sneImm _ _ => .sneImm (fieldX w) (fieldNN w)
  | .seReg _ _ => .seReg (fieldX w) (fieldY w)
  | .ldImm _ _ => .ldImm (fieldX w) (fieldNN w)
  | .addImm _ _ => .addImm (fieldX w) (fieldNN w)
  | .ldReg _ _ => .ldReg (fieldX w) (fieldY w)
  | .or _ _ => .or (fieldX w) (fieldY w)
  | .and _ _ => .and (fieldX w) (fieldY w)
  | .xor _ _ => .xor (fieldX w) (fieldY w)
  | .addReg _ _ => .addReg (fieldX w) (fieldY w)
  | .sub _ _ => .sub (fieldX w) (fieldY w)
  | .shr _ _ => .shr (fieldX w) (fieldY w)
  | .subn _ _ => .subn (fieldX w) (fieldY w)
  | .shl _ => .shl (fieldX w)
  | .sneReg _ _ => .sneReg (fieldX w) (fieldY w)
  | .ldI _ => .ldI (fieldNNN w)
  | .jpV0 _ => .jpV0 (fieldNNN w)
  | .rnd _ _ => .rnd (fieldX w) (fieldNN w)
  | .drw _ _ _ => .drw (fieldX w) (fieldY w) (fieldN w)
  | .skp _ => .skp (fieldX w)
  | .sknp _ => .sknp (fieldX w)
  | .ldFromDt _ => .ldFromDt (fieldX w)
  | .ldKey _ => .ldKey (fieldX w)
  | .ldToDt _ => .ldToDt (fieldX w)
  | .ldToSt _ => .ldToSt (fieldX w)
  | .addI _ => .addI (fieldX w)
  | .ldFont _ => .ldFont (fieldX w)
  | .ldBcd _ => .ldBcd (fieldX w)
  | .store _ => .store (fieldX w)
  | .load _ => .load (fieldX w)

theorem opcodeRow_withFieldsOf (i : Instr) (w : Word) : opcodeRow (i.withFieldsOf w) = opcodeRow i := by
  cases i <;> rfl

theorem withFieldsOf_withFieldsOf (i : Instr) (w : Word) :
    (i.withFieldsOf w).withFieldsOf w = i.withFieldsOf w := by
  cases i <;> rfl

theorem fieldN_le (w : Word) : fieldN w ≤ 15 := by
  rw [fieldN_eq]
  omega

/-- Fields read from a word fit, the row count of DXYN among them. -/
theorem withFieldsOf_wellFormed (i : Instr) (w : Word) : (i.withFieldsOf w).WellFormed = true := by
  cases i with
  | drw _ _ _ => exact decide_eq_true (fieldN_le w)
  | _ => rfl

theorem OpcodeRow.matchesWord_iff {r : OpcodeRow} {w : Word} :
    r.matchesWord w = true ↔ w &&& r.mask = r.pattern := by
  simp [OpcodeRow.matchesWord]

/-- A word that matches the row of an instruction decodes to that row's instruction with the word's fields: the mask
fixes the group and the sub-opcode by which the decoder dispatches. -/
theorem decode_of_matchesWord {i : Instr} {w : Word} (h : (opcodeRow i).matchesWord w = true) :
    decode w = .ok (i.withFieldsOf w) := by
  have hm := OpcodeRow.matchesWord_iff.mp h
  cases i with
  | jp _ => exact decode_of_group1 (fieldG_of_match_F000 (p := 0x1000) hm)
  | call _ => exact decode_of_group2 (fieldG_of_match_F000 (p := 0x2000) hm)
  | seImm _ _ => exact decode_of_group3 (fieldG_of_match_F000 (p := 0x3000) hm)
  | sneImm _ _ => exact decode_of_group4 (fieldG_of_match_F000 (p := 0x4000) hm)
  | ldImm _ _ => exact decode_of_group6 (fieldG_of_match_F000 (p := 0x6000) hm)
  | addImm _ _ => exact decode_of_group7 (fieldG_of_match_F000 (p := 0x7000) hm)
  | ldI _ => exact decode_of_groupA (fieldG_of_match_F000 (p := 0xA000) hm)
  | jpV0 _ => exact decode_of_groupB (fieldG_of_match_F000 (p := 0xB000) hm)
  | rnd _ _ => exact decode_of_groupC (fieldG_of_match_F000 (p := 0xC000) hm)
  | drw _ _ _ => exact decode_of_groupD (fieldG_of_match_F000 (p := 0xD000) hm)
  | seReg _ _ =>
    obtain ⟨hg, hn⟩ := fields_of_match_F00F (p := 0x5000) hm
    rw [decode_of_group5 hg, decodeGroup5, hn]; rfl
  | ldReg _ _ | or _ _ | and _ _ | xor _ _ | addReg _ _ | sub _ _ | shr _ _ | subn _ _ | shl _ =>
    simp only [opcodeRow] at hm
    obtain ⟨hg, hn⟩ := fields_of_match_F00F hm
    rw [decode_of_group8 hg, decodeGroup8, hn]; rfl
  | sneReg _ _ =>
    obtain ⟨hg, hn⟩ := fields_of_match_F00F (p := 0x9000) hm
    rw [decode_of_group9 hg, decodeGroup9, hn]; rfl
  | cls | ret =>
    obtain ⟨hg, hn⟩ := fields_of_match_F0FF hm
    rw [decode_of_group0 hg, decodeGroup0, hn]; rfl
  | skp _ | sknp _ =>
    simp only [opcodeRow] at hm
    obtain ⟨hg, hn⟩ := fields_of_match_F0FF hm
    rw [decode_of_groupE hg, decodeGroupE, hn]; rfl
  | ldFromDt _ | ldKey _ | ldToDt _ | ldToSt _ | addI _ | ldFont _ | ldBcd _ | store _ | load _ =>
    simp only [opcodeRow] at hm
    obtain ⟨hg, hn⟩ := fields_of_match_F0FF hm
    rw [decode_of_groupF hg, decodeGroupF, hn]; rfl

/-! ## Rows by the fields that they fix -/

/-- The row that fixes the group (30_encoding.md R100). -/
def rowG (g : Fin 16) : OpcodeRow := ⟨wordGXYN (BitVec.ofNat 4 g.val) 0 0 0, 0xF000⟩

/-- The row that fixes the group and N (30_encoding.md R96, R99). -/
def rowGN (g : Fin 16) (n : Nat) : OpcodeRow := ⟨wordGXYN (BitVec.ofNat 4 g.val) 0 0 (BitVec.ofNat 4 n), 0xF00F⟩

/-- The row that fixes the group and NN (30_encoding.md R95, R97, R98). -/
def rowGNN (g : Fin 16) (nn : Byte) : OpcodeRow := ⟨wordGXNN (BitVec.ofNat 4 g.val) 0 nn, 0xF0FF⟩

theorem rowG_matchesWord (w : Word) : (rowG (fieldG w)).matchesWord w = true :=
  OpcodeRow.matchesWord_iff.mpr (match_F000_of_fieldG rfl)

theorem rowGN_matchesWord (w : Word) : (rowGN (fieldG w) (fieldN w)).matchesWord w = true :=
  OpcodeRow.matchesWord_iff.mpr (match_F00F_of_fields rfl rfl)

theorem rowGNN_matchesWord (w : Word) : (rowGNN (fieldG w) (fieldNN w)).matchesWord w = true :=
  OpcodeRow.matchesWord_iff.mpr (match_F0FF_of_fields rfl rfl)

/-- A word with the group and N of an instruction's row decodes to that row's instruction. -/
theorem decode_of_rowGN (i : Instr) {w : Word} {g : Fin 16} {n : Nat} (hg : fieldG w = g) (hn : fieldN w = n)
    (hi : opcodeRow i = rowGN g n) : decode w = .ok (i.withFieldsOf w) :=
  decode_of_matchesWord (by rw [hi, ← hg, ← hn]; exact rowGN_matchesWord w)

/-- A word with the group and NN of an instruction's row decodes to that row's instruction. -/
theorem decode_of_rowGNN (i : Instr) {w : Word} {g : Fin 16} {nn : Byte} (hg : fieldG w = g) (hn : fieldNN w = nn)
    (hi : opcodeRow i = rowGNN g nn) : decode w = .ok (i.withFieldsOf w) :=
  decode_of_matchesWord (by rw [hi, ← hg, ← hn]; exact rowGNN_matchesWord w)

/-! ## The words without a handler (R95 to R101) -/

theorem decodeGroup0_error {w : Word} (h : fieldNN w ∉ [0xE0, 0xEE]) :
    decodeGroup0 w = .error .unknownGroup0 := by
  simp only [List.mem_cons, List.not_mem_nil, or_false, not_or] at h
  simp only [decodeGroup0, h, if_false]

theorem decodeGroup5_error {w : Word} (h : fieldN w ≠ 0) : decodeGroup5 w = .error .unknownGroup5 := if_neg h

theorem decodeGroup8_error {w : Word} (h : fieldN w ∈ [0x8, 0x9, 0xA, 0xB, 0xC, 0xD, 0xF]) :
    decodeGroup8 w = .error .unknownGroup8 := by
  simp only [List.mem_cons, List.not_mem_nil, or_false] at h
  rcases h with h | h | h | h | h | h | h <;> rw [decodeGroup8, h] <;> rfl

theorem decodeGroup9_error {w : Word} (h : fieldN w ≠ 0) : decodeGroup9 w = .error .unknownGroup9 := if_neg h

theorem decodeGroupE_error {w : Word} (h : fieldNN w ∉ [0x9E, 0xA1]) :
    decodeGroupE w = .error .unknownGroupE := by
  simp only [List.mem_cons, List.not_mem_nil, or_false, not_or] at h
  simp only [decodeGroupE, h, if_false]

theorem decodeGroupF_error {w : Word}
    (h : fieldNN w ∉ [0x07, 0x0A, 0x15, 0x18, 0x1E, 0x29, 0x33, 0x55, 0x65]) :
    decodeGroupF w = .error .unknownGroupF := by
  simp only [List.mem_cons, List.not_mem_nil, or_false, not_or] at h
  simp only [decodeGroupF, h, if_false]

/-- The unknown words, group by group (30_encoding.md R95 to R101, 92_eei_decisions.md D10). -/
def UnknownWord (w : Word) : Prop :=
  (fieldG w = 0x0 ∧ fieldNN w ∉ [0xE0, 0xEE]) ∨
  (fieldG w = 0x5 ∧ fieldN w ≠ 0) ∨
  (fieldG w = 0x8 ∧ fieldN w ∈ [0x8, 0x9, 0xA, 0xB, 0xC, 0xD, 0xF]) ∨
  (fieldG w = 0x9 ∧ fieldN w ≠ 0) ∨
  (fieldG w = 0xE ∧ fieldNN w ∉ [0x9E, 0xA1]) ∨
  (fieldG w = 0xF ∧ fieldNN w ∉ [0x07, 0x0A, 0x15, 0x18, 0x1E, 0x29, 0x33, 0x55, 0x65])

theorem decode_error_of_unknownWord {w : Word} (h : UnknownWord w) : ∃ e, decode w = .error e := by
  obtain ⟨hg, hn⟩ | ⟨hg, hn⟩ | ⟨hg, hn⟩ | ⟨hg, hn⟩ | ⟨hg, hn⟩ | ⟨hg, hn⟩ := h
  · exact ⟨_, (decode_of_group0 hg).trans (decodeGroup0_error hn)⟩
  · exact ⟨_, (decode_of_group5 hg).trans (decodeGroup5_error hn)⟩
  · exact ⟨_, (decode_of_group8 hg).trans (decodeGroup8_error hn)⟩
  · exact ⟨_, (decode_of_group9 hg).trans (decodeGroup9_error hn)⟩
  · exact ⟨_, (decode_of_groupE hg).trans (decodeGroupE_error hn)⟩
  · exact ⟨_, (decode_of_groupF hg).trans (decodeGroupF_error hn)⟩

/-! ## Every word matches a row or is unknown -/

theorem fieldG_cases (w : Word) :
    fieldG w ∈ [0x1, 0x2, 0x3, 0x4, 0x6, 0x7, 0xA, 0xB, 0xC, 0xD] ∨
    fieldG w = 0x0 ∨ fieldG w = 0x5 ∨ fieldG w = 0x8 ∨ fieldG w = 0x9 ∨ fieldG w = 0xE ∨ fieldG w = 0xF := by
  generalize fieldG w = g
  revert g
  decide

theorem fieldN_group8_cases (w : Word) :
    fieldN w ∈ [0x0, 0x1, 0x2, 0x3, 0x4, 0x5, 0x6, 0x7, 0xE] ∨
    fieldN w ∈ [0x8, 0x9, 0xA, 0xB, 0xC, 0xD, 0xF] := by
  have h := fieldN_le w
  simp only [List.mem_cons, List.not_mem_nil, or_false]
  omega

/-- The map has a row for each of the ten groups that hold one instruction (R100). -/
theorem rowG_mem_opcodeMap :
    ∀ g ∈ ([0x1, 0x2, 0x3, 0x4, 0x6, 0x7, 0xA, 0xB, 0xC, 0xD] : List (Fin 16)), rowG g ∈ opcodeMap := by
  decide

/-- The map has a row for each N of group 8 that selects (R96). -/
theorem rowGN_8_mem_opcodeMap :
    ∀ n ∈ [0x0, 0x1, 0x2, 0x3, 0x4, 0x5, 0x6, 0x7, 0xE], rowGN 0x8 n ∈ opcodeMap := by
  decide

/-- The map has a row for each NN of group 0 that selects (R95). -/
theorem rowGNN_0_mem_opcodeMap : ∀ nn ∈ ([0xE0, 0xEE] : List Byte), rowGNN 0x0 nn ∈ opcodeMap := by
  decide

/-- The map has a row for each NN of group E that selects (R97). -/
theorem rowGNN_E_mem_opcodeMap : ∀ nn ∈ ([0x9E, 0xA1] : List Byte), rowGNN 0xE nn ∈ opcodeMap := by
  decide

/-- The map has a row for each NN of group F that selects (R98). -/
theorem rowGNN_F_mem_opcodeMap :
    ∀ nn ∈ ([0x07, 0x0A, 0x15, 0x18, 0x1E, 0x29, 0x33, 0x55, 0x65] : List Byte), rowGNN 0xF nn ∈ opcodeMap := by
  decide

/-- A word matches the row of its group, of its group and N, or of its group and NN, unless it is unknown. -/
theorem matches_opcodeMap_or_unknownWord (w : Word) :
    (∃ r ∈ opcodeMap, r.matchesWord w = true) ∨ UnknownWord w := by
  have hG := rowG_matchesWord w
  have hGN := rowGN_matchesWord w
  have hGNN := rowGNN_matchesWord w
  obtain hg | hg | hg | hg | hg | hg | hg := fieldG_cases w
  · exact .inl ⟨_, rowG_mem_opcodeMap _ hg, hG⟩
  · rw [hg] at hGNN
    by_cases hn : fieldNN w ∈ [0xE0, 0xEE]
    · exact .inl ⟨_, rowGNN_0_mem_opcodeMap _ hn, hGNN⟩
    · exact .inr (.inl ⟨hg, hn⟩)
  · rw [hg] at hGN
    by_cases hn : fieldN w = 0
    · exact .inl ⟨rowGN 0x5 0, by decide, hn ▸ hGN⟩
    · exact .inr (.inr (.inl ⟨hg, hn⟩))
  · rw [hg] at hGN
    obtain hn | hn := fieldN_group8_cases w
    · exact .inl ⟨_, rowGN_8_mem_opcodeMap _ hn, hGN⟩
    · exact .inr (.inr (.inr (.inl ⟨hg, hn⟩)))
  · rw [hg] at hGN
    by_cases hn : fieldN w = 0
    · exact .inl ⟨rowGN 0x9 0, by decide, hn ▸ hGN⟩
    · exact .inr (.inr (.inr (.inr (.inl ⟨hg, hn⟩))))
  · rw [hg] at hGNN
    by_cases hn : fieldNN w ∈ [0x9E, 0xA1]
    · exact .inl ⟨_, rowGNN_E_mem_opcodeMap _ hn, hGNN⟩
    · exact .inr (.inr (.inr (.inr (.inr (.inl ⟨hg, hn⟩)))))
  · rw [hg] at hGNN
    by_cases hn : fieldNN w ∈ [0x07, 0x0A, 0x15, 0x18, 0x1E, 0x29, 0x33, 0x55, 0x65]
    · exact .inl ⟨_, rowGNN_F_mem_opcodeMap _ hn, hGNN⟩
    · exact .inr (.inr (.inr (.inr (.inr (.inr ⟨hg, hn⟩)))))

/-- What the decoder can do with a word: answer the instruction of a row that the word matches, with the word's
fields, or reject one of the unknown words. -/
theorem decode_cases (w : Word) :
    (∃ i, (opcodeRow i).matchesWord w = true ∧ decode w = .ok (i.withFieldsOf w)) ∨
    (UnknownWord w ∧ ∃ e, decode w = .error e) := by
  obtain ⟨r, hr, hm⟩ | hu := matches_opcodeMap_or_unknownWord w
  · obtain ⟨i, _, rfl⟩ := List.mem_map.mp hr
    exact .inl ⟨i, hm, decode_of_matchesWord hm⟩
  · exact .inr ⟨hu, decode_error_of_unknownWord hu⟩

/-- A word decodes to an instruction exactly when it matches its row and its fields are the operands. -/
theorem decode_eq_ok_iff {w : Word} {i : Instr} :
    decode w = .ok i ↔ (opcodeRow i).matchesWord w = true ∧ i.withFieldsOf w = i := by
  constructor
  · intro h
    obtain ⟨j, hm, hj⟩ | ⟨_, e, he⟩ := decode_cases w
    · obtain rfl : j.withFieldsOf w = i := Except.ok.inj (hj.symm.trans h)
      exact ⟨by rwa [opcodeRow_withFieldsOf], withFieldsOf_withFieldsOf j w⟩
    · simp [he] at h
  · rintro ⟨hm, hi⟩
    rw [decode_of_matchesWord hm, hi]

theorem wellFormed_of_decode {w : Word} {i : Instr} (h : decode w = .ok i) : i.WellFormed = true := by
  rw [← (decode_eq_ok_iff.mp h).2]
  exact withFieldsOf_wellFormed i w

/-! ## The encoder -/

/-- The word of an instruction matches the instruction's row (30_encoding.md R103). -/
theorem encode_matchesWord : ∀ i : Instr, (opcodeRow i).matchesWord (encode i) = true
  | .cls => Laws.EncodingRow.cls
  | .ret => Laws.EncodingRow.ret
  | .jp nnn => Laws.EncodingRow.jp nnn
  | .call nnn => Laws.EncodingRow.call nnn
  | .seImm x nn => Laws.EncodingRow.seImm x nn
  | .sneImm x nn => Laws.EncodingRow.sneImm x nn
  | .seReg x y => Laws.EncodingRow.seReg x y
  | .ldImm x nn => Laws.EncodingRow.ldImm x nn
  | .addImm x nn => Laws.EncodingRow.addImm x nn
  | .ldReg x y => Laws.EncodingRow.ldReg x y
  | .or x y => Laws.EncodingRow.or x y
  | .and x y => Laws.EncodingRow.and x y
  | .xor x y => Laws.EncodingRow.xor x y
  | .addReg x y => Laws.EncodingRow.addReg x y
  | .sub x y => Laws.EncodingRow.sub x y
  | .shr x y => Laws.EncodingRow.shr x y
  | .subn x y => Laws.EncodingRow.subn x y
  | .shl x => Laws.EncodingRow.shl x
  | .sneReg x y => Laws.EncodingRow.sneReg x y
  | .ldI nnn => Laws.EncodingRow.ldI nnn
  | .jpV0 nnn => Laws.EncodingRow.jpV0 nnn
  | .rnd x nn => Laws.EncodingRow.rnd x nn
  | .drw x y n => Laws.EncodingRow.drw x y n
  | .skp x => Laws.EncodingRow.skp x
  | .sknp x => Laws.EncodingRow.sknp x
  | .ldFromDt x => Laws.EncodingRow.ldFromDt x
  | .ldKey x => Laws.EncodingRow.ldKey x
  | .ldToDt x => Laws.EncodingRow.ldToDt x
  | .ldToSt x => Laws.EncodingRow.ldToSt x
  | .addI x => Laws.EncodingRow.addI x
  | .ldFont x => Laws.EncodingRow.ldFont x
  | .ldBcd x => Laws.EncodingRow.ldBcd x
  | .store x => Laws.EncodingRow.store x
  | .load x => Laws.EncodingRow.load x

/-- The fields of an instruction's word are its operands, in each of the three formats (30_encoding.md R93). -/
theorem withFieldsOf_encode {i : Instr} (h : i.WellFormed = true) : i.withFieldsOf (encode i) = i := by
  cases i with
  | cls | ret => rfl
  | jp _ | call _ | ldI _ | jpV0 _ => simp only [Instr.withFieldsOf, encode, fieldNNN_wordGNNN]
  | seImm _ _ | sneImm _ _ | ldImm _ _ | addImm _ _ | rnd _ _ | skp _ | sknp _ | ldFromDt _ | ldKey _ | ldToDt _
  | ldToSt _ | addI _ | ldFont _ | ldBcd _ | store _ | load _ =>
    simp only [Instr.withFieldsOf, encode, fieldX_wordGXNN, fieldNN_wordGXNN]
  | seReg _ _ | ldReg _ _ | or _ _ | and _ _ | xor _ _ | addReg _ _ | sub _ _ | shr _ _ | subn _ _ | shl _
  | sneReg _ _ =>
    simp only [Instr.withFieldsOf, encode, fieldX_wordGXYN, fieldY_wordGXYN]
  | drw _ _ n =>
    have hn : n ≤ 15 := of_decide_eq_true h
    simp only [Instr.withFieldsOf, encode, fieldX_wordGXYN, fieldY_wordGXYN, fieldN_wordGXYN, BitVec.toNat_ofNat,
      Nat.mod_eq_of_lt (show n < 2 ^ 4 by omega)]

theorem decode_encode {i : Instr} (h : i.WellFormed = true) : decode (encode i) = .ok i :=
  decode_eq_ok_iff.mpr ⟨encode_matchesWord i, withFieldsOf_encode h⟩

/-- Decoding an instruction's two bytes decodes its word. -/
theorem decodeBytes_encodeBytes_append (i : Instr) (rest : List Byte) :
    decodeBytes (encodeBytes i ++ rest) = (decode (encode i)).map fun j => (j, rest) := by
  simp only [encodeBytes, List.cons_append, List.nil_append, decodeBytes, wordOf_extract]

/-! ## The opcode map (R103) -/

theorem opcodeRow_mem_opcodeMap (i : Instr) : opcodeRow i ∈ opcodeMap := by
  cases i <;> simp [opcodeRow, opcodeMap]

/-- Two rows differ in a bit that both masks examine. -/
theorem opcodeMap_pairwise_disjoint :
    opcodeMap.Pairwise fun r q => r.mask &&& q.mask &&& (r.pattern ^^^ q.pattern) ≠ 0 := by
  decide

theorem matchesWord_iff_decode {r : OpcodeRow} (hr : r ∈ opcodeMap) (w : Word) :
    r.matchesWord w = true ↔ ∃ i, decode w = .ok i ∧ opcodeRow i = r := by
  constructor
  · intro hm
    obtain ⟨i, _, rfl⟩ := List.mem_map.mp hr
    exact ⟨_, decode_of_matchesWord hm, opcodeRow_withFieldsOf i w⟩
  · rintro ⟨i, hi, rfl⟩
    exact (decode_eq_ok_iff.mp hi).1

/-! ## The obligations -/

/-- Settles O1: the encoded word matches the instruction's row, so it decodes to that row with the word's own fields,
and these are the operands. -/
theorem decodeOfEncodeIsTheInstruction : Obligations.DecodeOfEncodeIsTheInstruction := by
  intro i rest h
  refine ⟨decode_encode h, ?_⟩
  rw [decodeBytes_encodeBytes_append, decode_encode h]
  rfl

/-- Settles O2: a matching word decodes to its row, and every word matches a row or is rejected. -/
theorem decodeAgreesWithTheOpcodeMap : Obligations.DecodeAgreesWithTheOpcodeMap :=
  ⟨fun _ w hr => matchesWord_iff_decode hr w, opcodeRow_mem_opcodeMap, rfl, opcodeMap_pairwise_disjoint,
    fun _ _ h => wellFormed_of_decode h⟩

/-- Settles O3: a word that is not listed matches a row, which decodes. -/
theorem unknownWordsAreExactlyTheListed : Obligations.UnknownWordsAreExactlyTheListed := by
  refine fun w => ⟨fun ⟨e, he⟩ => ?_, decode_error_of_unknownWord⟩
  obtain ⟨i, _, hi⟩ | ⟨hu, _⟩ := decode_cases w
  · simp [hi] at he
  · exact hu

/-- Settles O4: a group and a sub-opcode fix a row of the opcode map, or an arm that rejects. -/
theorem dispatchSelectsByGroup : Obligations.DispatchSelectsByGroup := by
  refine ⟨fun w hg => ?_, fun w hg => ?_, fun w hg => ?_, fun w hg => ?_, fun w => ?_⟩
  · exact ⟨fun hn => decode_of_rowGNN .cls hg hn rfl, fun hn => decode_of_rowGNN .ret hg hn rfl,
      fun hn => ⟨_, (decode_of_group0 hg).trans (decodeGroup0_error hn)⟩⟩
  · exact ⟨fun hn => decode_of_rowGN (.ldReg 0 0) hg hn rfl, fun hn => decode_of_rowGN (.or 0 0) hg hn rfl,
      fun hn => decode_of_rowGN (.and 0 0) hg hn rfl, fun hn => decode_of_rowGN (.xor 0 0) hg hn rfl,
      fun hn => decode_of_rowGN (.addReg 0 0) hg hn rfl, fun hn => decode_of_rowGN (.sub 0 0) hg hn rfl,
      fun hn => decode_of_rowGN (.shr 0 0) hg hn rfl, fun hn => decode_of_rowGN (.subn 0 0) hg hn rfl,
      fun hn => decode_of_rowGN (.shl 0) hg hn rfl,
      fun hn => ⟨_, (decode_of_group8 hg).trans (decodeGroup8_error hn)⟩⟩
  · exact ⟨fun hn => decode_of_rowGNN (.skp 0) hg hn rfl, fun hn => decode_of_rowGNN (.sknp 0) hg hn rfl,
      fun hn => ⟨_, (decode_of_groupE hg).trans (decodeGroupE_error hn)⟩⟩
  · exact ⟨fun hn => decode_of_rowGNN (.ldFromDt 0) hg hn rfl, fun hn => decode_of_rowGNN (.ldKey 0) hg hn rfl,
      fun hn => decode_of_rowGNN (.ldToDt 0) hg hn rfl, fun hn => decode_of_rowGNN (.ldToSt 0) hg hn rfl,
      fun hn => decode_of_rowGNN (.addI 0) hg hn rfl, fun hn => decode_of_rowGNN (.ldFont 0) hg hn rfl,
      fun hn => decode_of_rowGNN (.ldBcd 0) hg hn rfl, fun hn => decode_of_rowGNN (.store 0) hg hn rfl,
      fun hn => decode_of_rowGNN (.load 0) hg hn rfl,
      fun hn => ⟨_, (decode_of_groupF hg).trans (decodeGroupF_error hn)⟩⟩
  · exact ⟨decode_of_group1, decode_of_group2, decode_of_group3, decode_of_group4, decode_of_group6,
      decode_of_group7, decode_of_groupA, decode_of_groupB, decode_of_groupC, decode_of_groupD⟩

/-- Settles O5: the decoder evaluates on each of the twelve words. -/
theorem sampleWordsDecode : Obligations.SampleWordsDecode := by
  unfold Obligations.SampleWordsDecode
  decide

end Sys2Proof

namespace Sys2Proof.Machine

/-- A step whose fetched word decodes runs the instruction after the advance (40_fetch_execute.md R125). -/
theorem step_of_decode {s : State} {w : Word} {i : Instr} (hf : s.fault = none) (hw : s.fetch = .ok w)
    (hd : decode w = .ok i) : step s = exec i s.advance := by
  simp only [step, hf, hw, hd]

/-- Settles O6: inside memory the fetch answers the word of the two bytes at pc, and the advance is the new pc. -/
theorem stepRunsTheDecodedInstruction : Obligations.StepRunsTheDecodedInstruction :=
  fun _ _ hf hpc hd => step_of_decode hf (State.fetch_of_le hpc) hd

end Sys2Proof.Machine
end

section
/-! SUPPORT. One rule per outcome of a step (40_fetch_execute.md R129; the rule of a word that decodes is
`step_of_decode`), and that every instruction answers a next state. -/

namespace Sys2Proof.Machine

/-! ## The outcomes of a step -/

/-- A core with a fault recorded has no move (R120, D14). -/
theorem step_of_fault {s : State} {r : FaultRecord} (hf : s.fault = some r) :
    step s = .fault (.runEnded r) := by
  simp only [step, hf]

/-- A fetch fault is recorded with pc as it was (R121). -/
theorem step_of_fetch_error {s : State} {k : FaultKind} (hf : s.fault = none) (hk : s.fetch = .error k) :
    step s = .next (s.raiseAt s.pc k) := by
  simp only [step, hf, hk]

/-- A word with no handler is recorded after the advance (R122, R124). -/
theorem step_of_decode_error {s : State} {w : Word} {e : DecodeError} (hf : s.fault = none)
    (hw : s.fetch = .ok w) (hd : decode w = .error e) :
    step s = .next (s.advance.raiseAt s.pc (.unknownInstruction s.pc w)) := by
  simp only [step, hf, hw, hd]

/-- The host's `step()` returns what the state after the step reports (R127). -/
theorem transact_step_of_next {s t : State} (h : step s = .next t) :
    transact .step s = .next (t, stepResponse t) := by
  simp only [transact, h]

/-! ## Every instruction answers a next state (R125, R127) -/

/-- An access answers a next state, whether it succeeds or raises. -/
theorem State.orRaise_eq_next {α : Type} (s : State) (r : Except FaultKind α) (f : α → State) :
    ∃ t, s.orRaise r f = .next t := by
  cases r with
  | ok v => exact ⟨_, s.orRaise_ok v f⟩
  | error k => exact ⟨_, s.orRaise_error k f⟩

/-- CALL answers a next state: a full stack raises, and the push goes on or raises. -/
theorem execCall_eq_next (nnn : Addr12) (s : State) : ∃ t, execCall nnn s = .next t := by
  unfold execCall
  split
  · exact ⟨_, rfl⟩
  · exact s.orRaise_eq_next _ _

/-- RET answers a next state: an empty stack raises, and the pop goes on or raises. -/
theorem execRet_eq_next (s : State) : ∃ t, execRet s = .next t := by
  unfold execRet
  split
  · exact ⟨_, rfl⟩
  · exact s.orRaise_eq_next _ _

/-- FX1E answers a next state: a sum past memory raises, and any other is stored. -/
theorem execAddI_eq_next (x : Reg) (s : State) : ∃ t, execAddI x s = .next t := by
  unfold execAddI
  split <;> exact ⟨_, rfl⟩

/-- FX0A answers a next state: with no key pressed it waits, else it takes the lowest key. -/
theorem execLdKey_eq_next (x : Reg) (s : State) : ∃ t, execLdKey x s = .next t := by
  unfold execLdKey
  split <;> exact ⟨_, rfl⟩

/-- Every instruction answers a next state: four branch, four end in an access that may raise, and the others
write a state outright. -/
theorem exec_eq_next (i : Instr) (s : State) : ∃ t, exec i s = .next t := by
  cases i with
  | call nnn => exact execCall_eq_next nnn s
  | ret => exact execRet_eq_next s
  | addI x => exact execAddI_eq_next x s
  | ldKey x => exact execLdKey_eq_next x s
  | drw _ _ _ | ldBcd _ | store _ | load _ => exact s.orRaise_eq_next _ _
  | cls | jp _ | jpV0 _ | seImm _ _ | sneImm _ _ | seReg _ _ | sneReg _ _ | ldImm _ _ | addImm _ _
  | ldReg _ _ | or _ _ | and _ _ | xor _ _ | addReg _ _ | sub _ _ | shr _ _ | subn _ _ | shl _ | rnd _ _
  | ldI _ | ldFont _ | skp _ | sknp _ | ldFromDt _ | ldToDt _ | ldToSt _ => exact ⟨_, rfl⟩

/-- A core with no fault recorded always has a move: the fetch raises, or the word is unknown and raises, or its
instruction runs. -/
theorem step_eq_next {s : State} (hf : s.fault = none) : ∃ t, step s = .next t := by
  cases hw : s.fetch with
  | error k => exact ⟨_, step_of_fetch_error hf hw⟩
  | ok w =>
    cases hd : decode w with
    | error e => exact ⟨_, step_of_decode_error hf hw hd⟩
    | ok i =>
      rw [step_of_decode hf hw hd]
      exact exec_eq_next i s.advance

/-! ## The statements -/

/-- Settles O12: every meaning ends in a next state, and so does each of the three ways through a step. -/
theorem noInstructionStops : Obligations.NoInstructionStops :=
  ⟨exec_eq_next, fun _ hf => step_eq_next hf⟩

/-- Settles O7: a word that decodes to no instruction is one the decoder rejects, so the step raises after the
advance, and the host gets the record. -/
theorem unknownWordRaises : Obligations.UnknownWordRaises := by
  intro s w hf hpc hw hnone
  have hfetch : s.fetch = .ok w := hw ▸ State.fetch_of_le hpc
  cases hd : decode w with
  | ok i => exact absurd hd (hnone i)
  | error e =>
    have hstep := step_of_decode_error hf hfetch hd
    exact ⟨hstep, transact_step_of_next hstep⟩

/-- Settles O8: past the image the fetch is a fault of the lowest offending address, raised before the advance. -/
theorem fetchPastMemoryRaises : Obligations.FetchPastMemoryRaises :=
  fun _ hf hpc => step_of_fetch_error hf (State.fetch_past hpc)

/-- Settles O9: the step looks at the record first. -/
theorem faultedCoreHasNoMove : Obligations.FaultedCoreHasNoMove :=
  fun _ _ hf => step_of_fault hf

end Sys2Proof.Machine
end

section
/-! SUPPORT. Control flow (41_control_flow.md): the frame of any instruction and the encoding of any row in one
lemma each, and what CALL and RET answer on each side of their bounds. -/

namespace Sys2Proof.Machine

/-! ## Any instruction -/

/-- An instruction keeps everything outside its destinations and its store window. -/
theorem exec_frame {i : Instr} {s t : State} (h : exec i s = .next t) :
    Frame (destRegs i) (destSpecials i) (storeWindow s i).1 (storeWindow s i).2 s t :=
  ⟨fun _ hr => exec_reg_of_notMem_destRegs h hr, exec_specialsKeptBut_destSpecials h,
    memoryChangesOnlyInTheStoreWindow i s t h⟩

/-- The words of an instruction's row decode to that instruction with the word's fields (30_encoding.md R103). -/
theorem encoded_opcodeRow (i : Instr) : Encoded (opcodeRow i).pattern (opcodeRow i).mask i.withFieldsOf :=
  fun _ h => decode_of_matchesWord (OpcodeRow.matchesWord_iff.2 h)

/-! ## A word on the stack -/

/-- The two big-endian bytes of a word are its high byte and its low byte. -/
theorem beBytes_two_toNat (w : Word) : beBytes 2 w.toNat = [w.extractLsb' 8 8, w.extractLsb' 0 8] := rfl

/-- Two bytes of memory spell the word that they join to. -/
theorem ofNat_beNat_readBytes_two (m : Memory) (a : Nat) :
    BitVec.ofNat 16 (beNat (m.readBytes a 2)) = wordOf (m.read a) (m.read (a + 1)) := by
  simp only [Memory.readBytes, beNat_pair, ← wordOf_toNat, BitVec.ofNat_toNat, BitVec.setWidth_eq]

/-- A word written to memory as its two bytes reads back. -/
theorem ofNat_beNat_readBytes_pushed {m : Memory} (hm : m.wf = true) {a : Nat} (ha : a + 2 ≤ 0x1000) (w : Word) :
    BitVec.ofNat 16 (beNat ((m.writeBytes a (beBytes 2 w.toNat)).readBytes a 2)) = w := by
  have hback := Memory.readBytes_writeBytes hm (beBytes 2 w.toNat) ha
  rw [beBytes_length] at hback
  rw [hback, beNat_beBytes, Nat.mod_eq_of_lt (show w.toNat < 256 ^ 2 from w.isLt),
    BitVec.ofNat_toNat, BitVec.setWidth_eq]

/-! ## CALL and RET on each side of their bounds (R141, R142, D11) -/

/-- CALL with a free slot pushes pc and jumps. -/
theorem exec_call_of_room (nnn : Addr12) {s : State} (h : s.sp.toNat + 2 ≤ 0xF00) :
    exec (.call nnn) s = .next (((s.setMem (s.mem.writeBytes s.sp.toNat (beBytes 2 s.pc.toNat))).setSp
      (s.sp + 2)).setPc (addrOf nnn)) := by
  obtain ⟨t, ht⟩ := exec_eq_next (.call nnn) s
  obtain ⟨hfull, _⟩ | ⟨_, rfl⟩ := exec_call_cases ht
  · omega
  · exact ht

/-- CALL without a free slot raises. -/
theorem exec_call_of_full (nnn : Addr12) {s : State} (h : 0xF00 < s.sp.toNat + 2) :
    exec (.call nnn) s = .next (s.raise (.stackOverflow s.instrAddr s.sp)) := by
  obtain ⟨t, ht⟩ := exec_eq_next (.call nnn) s
  obtain ⟨_, rfl⟩ | ⟨hroom, _⟩ := exec_call_cases ht
  · exact ht
  · omega

/-- RET with an entry inside the image pops pc. -/
theorem exec_ret_of_entry {s : State} (h : 0xEA2 ≤ s.sp.toNat) (h' : s.sp.toNat ≤ 0x1000) :
    exec .ret s = .next ((s.setSp (s.sp - 2)).setPc
      (BitVec.ofNat 16 (beNat (s.mem.readBytes (s.sp.toNat - 2) 2)))) := by
  obtain ⟨t, ht⟩ := exec_eq_next .ret s
  obtain ⟨hempty, _⟩ | ⟨hpast, _⟩ | ⟨_, _, rfl⟩ := exec_ret_cases ht
  · omega
  · omega
  · exact ht

/-- RET without an entry raises. -/
theorem exec_ret_of_empty {s : State} (h : s.sp.toNat < 0xEA2) :
    exec .ret s = .next (s.raise (.stackUnderflow s.instrAddr s.sp)) := by
  obtain ⟨t, ht⟩ := exec_eq_next .ret s
  obtain ⟨_, rfl⟩ | ⟨hpast, _⟩ | ⟨hentry, _⟩ := exec_ret_cases ht
  · exact ht
  · omega
  · omega

/-- RET with its entry past the image raises what `MemRead` raises (assumption log 12). -/
theorem exec_ret_past {s : State} (h : 0x1000 < s.sp.toNat) :
    exec .ret s = .next (s.raise (.memoryOutOfRange
      (if s.sp.toNat - 2 > 0xFFF then s.sp.toNat - 2 else 0x1000))) := by
  have hsub : (s.sp - 2).toNat = s.sp.toNat - 2 := by bv_omega
  rw [exec, execRet, if_neg (by simp only [Config.stackBase]; omega), hsub,
    memRead_past (by omega) (by omega), State.orRaise_error]

/-- RET after a push of `w` at `s.sp` pops `w` and the stack pointer before the push, wherever pc is. -/
theorem exec_ret_of_pushed {s t : State} {w : Word} (hm : s.mem.wf = true) (hlo : 0xEA0 ≤ s.sp.toNat)
    (hhi : s.sp.toNat + 2 ≤ 0xF00) (hsp : t.sp = s.sp + 2)
    (hmem : t.mem = s.mem.writeBytes s.sp.toNat (beBytes 2 w.toNat)) :
    exec .ret t = .next ((t.setSp s.sp).setPc w) := by
  have hadd : t.sp.toNat = s.sp.toNat + 2 := by rw [hsp]; bv_omega
  rw [exec_ret_of_entry (by omega) (by omega), hadd, Nat.add_sub_cancel, hmem,
    ofNat_beNat_readBytes_pushed hm (by omega), hsp, BitVec.add_sub_cancel]

/-! ## The target of BNNN (R143) -/

/-- A 12-bit address plus a byte does not wrap in 16 bits. -/
theorem addrOf_add_wordOfByte_toNat (nnn : Addr12) (b : Byte) :
    (addrOf nnn + wordOfByte b).toNat = nnn.toNat + b.toNat := by
  unfold addrOf wordOfByte
  bv_omega

/-! ## The statements -/

/-- Settles O32: the slot that CALL pushed is the one below sp at the RET, and it holds the pushed pc. -/
theorem callThenRetReturns : Obligations.CallThenRetReturns := by
  intro nnn s t q hm hlo hhi h
  obtain ⟨hfull, _⟩ | ⟨_, rfl⟩ := exec_call_cases h
  · omega
  · exact ⟨_, exec_ret_of_pushed hm hlo hhi rfl rfl, rfl, rfl⟩

/-- Settles O27: the target is the zero-extended NNN. -/
theorem jpSetsPcToNNN : Obligations.JpSetsPcToNNN :=
  ⟨encoded_opcodeRow (.jp 0), fun nnn _ => ⟨_, rfl, addrOf_toNat nnn, exec_frame (i := .jp nnn) rfl⟩⟩

/-- Settles O28: the sum of a 12-bit address and a byte fits, and past memory the next fetch raises. -/
theorem jpV0AddsV0ToNNN : Obligations.JpV0AddsV0ToNNN := by
  refine ⟨encoded_opcodeRow (.jpV0 0), fun nnn s => ?_⟩
  have hpc := addrOf_add_wordOfByte_toNat nnn (s.reg 0)
  refine ⟨_, rfl, hpc, ?_, exec_frame (i := .jpV0 nnn) rfl, fun hf hpast => fetchPastMemoryRaises _ hf hpast⟩
  rw [State.setPc_pc, hpc]
  omega

/-- Settles O29: the two bytes written at sp are the big-endian bytes of pc. -/
theorem callPushesTheReturnAddress : Obligations.CallPushesTheReturnAddress := by
  refine ⟨encoded_opcodeRow (.call 0), fun nnn s hm hroom => ?_⟩
  have hpushed := Memory.read_writeBytes_inside hm (beBytes 2 s.pc.toNat) (show s.sp.toNat + 2 ≤ 0x1000 by omega)
  have hbytes := fun j (hj : j < (beBytes 2 s.pc.toNat).length) =>
    (hpushed j hj).trans (List.getElem_of_eq (beBytes_two_toNat s.pc) hj)
  refine ⟨_, exec_call_of_room nnn hroom, hbytes 0 (by simp), hbytes 1 (by simp), ?_, addrOf_toNat nnn,
    fun _ _ => rfl, by simp [SpecialsKeptBut], .of_writeBytes (beBytes_length _ _) rfl⟩
  simp only [State.setPc_sp, State.setSp_sp]
  bv_omega

/-- Settles O30: the two bytes below sp join to the new pc. -/
theorem retPopsPc : Obligations.RetPopsPc := by
  refine ⟨encoded_opcodeRow .ret, fun s hlo hhi => ?_⟩
  refine ⟨_, exec_ret_of_entry hlo hhi, ?_, ?_, fun _ _ => rfl, by simp [SpecialsKeptBut], .of_mem_eq rfl _ _⟩
  · have hnext : s.sp.toNat - 2 + 1 = s.sp.toNat - 1 := by omega
    rw [State.setPc_pc, ofNat_beNat_readBytes_two, hnext]
  · simp only [State.setPc_sp, State.setSp_sp]
    bv_omega

/-- Settles O31: each bound of the stack has its own raise, and a raise only records the fault. -/
theorem stackBoundsRaise : Obligations.StackBoundsRaise :=
  ⟨fun nnn _ h => exec_call_of_full nnn h, fun _ h => exec_ret_of_empty h, fun _ h => exec_ret_past h⟩

/-- Settles O33: a skip adds 2 to pc exactly under its condition, which a load of the same NN makes true. -/
theorem immediateSkips : Obligations.ImmediateSkips := by
  refine ⟨encoded_opcodeRow (.seImm 0 0), encoded_opcodeRow (.sneImm 0 0), fun x nn s => ⟨?_, ?_, ?_⟩⟩
  · refine ⟨s.setReg x nn, _, rfl, rfl, ?_⟩
    simp [BitVec.add_assoc]
  · exact ⟨_, rfl, by simp, exec_frame (i := .seImm x nn) rfl⟩
  · exact ⟨_, rfl, by simp, exec_frame (i := .sneImm x nn) rfl⟩

/-- Settles O34: a skip adds 2 to pc exactly under its condition. -/
theorem registerSkips : Obligations.RegisterSkips := by
  refine ⟨encoded_opcodeRow (.seReg 0 0), encoded_opcodeRow (.sneReg 0 0), fun x y s => ⟨?_, ?_⟩⟩
  · exact ⟨_, rfl, by simp, exec_frame (i := .seReg x y) rfl⟩
  · exact ⟨_, rfl, by simp, exec_frame (i := .sneReg x y) rfl⟩

end Sys2Proof.Machine
end

section
/-! SUPPORT. Register loads and the ALU (42_register_alu.md): flags as numbers, and what the two flagged writes leave
in the destination and in VF. -/

namespace Sys2Proof.Machine

/-! ## Flags as numbers (R176 to R180) -/

theorem flagByte_decide (p : Prop) [Decidable p] : flagByte (decide p) = if p then 1 else 0 := by
  simp [flagByte]

theorem flagByte_toNat (b : Bool) : (flagByte b).toNat = b.toNat := by
  cases b <;> rfl

/-- A flag taken from one bit of a byte (R178, R180). -/
theorem flagByte_getLsbD_toNat (v : Byte) (k : Nat) : (flagByte (v.getLsbD k)).toNat = v.toNat / 2 ^ k % 2 := by
  rw [flagByte_toNat, BitVec.getLsbD, Nat.toNat_testBit]

/-- The low nibble of a byte as a number. -/
theorem byte_and_lowNibble_toNat (v : Byte) : (v &&& 0x0F).toNat = v.toNat % 16 := by
  rw [BitVec.toNat_and]
  exact Nat.and_two_pow_sub_one_eq_mod v.toNat 4

/-- The flag of 8XYE under the reading by the low nibble (R180, D7). -/
theorem flagByte_shlFlagOf_lowNibble_toNat (v : Byte) :
    (flagByte (shlFlagOf .lowNibbleNonzero v)).toNat = if v.toNat % 16 = 0 then 0 else 1 := by
  have hzero : v &&& 0x0F = 0 ↔ v.toNat % 16 = 0 := by
    rw [← byte_and_lowNibble_toNat]
    exact BitVec.toNat_eq
  simp only [shlFlagOf, flagByte_decide, ne_eq, hzero, ite_not]
  split <;> rfl

/-- A difference of bytes is the difference modulo 256 (R182). -/
theorem byte_sub_toNat (a b : Byte) : (a - b).toNat = (a.toNat + 256 - b.toNat) % 256 := by
  bv_omega

/-! ## The two flagged writes (D8, D9) -/

/-- A flagged write gives the result `r` and the flag `c`, and `ALU_ALIAS_ORDER` decides between them where the
destination is VF (D8). -/
theorem State.writeFlagged_result_and_flag (s : State) (d : Reg) {v c : Byte} {f : Bool} {r : Nat}
    (hv : v.toNat = r) (hc : flagByte f = c) :
    let t := s.writeFlagged d v f
    (d ≠ vf → (t.reg d).toNat = r ∧ t.reg vf = c) ∧
    (d = vf → s.params.aluAliasOrder = .flagThenResult → (t.reg vf).toNat = r) ∧
    (d = vf → s.params.aluAliasOrder = .resultThenFlag → t.reg vf = c) := by
  subst hv hc
  refine ⟨fun hd => ?_, ?_, ?_⟩
  · simp [State.writeFlagged_reg hd, hd.symm]
  · rintro rfl horder
    simp [State.writeFlagged_reg_vf, horder]
  · rintro rfl horder
    simp [State.writeFlagged_reg_vf, horder]

/-- The shifted register, where it is not VF, is shifted from its value before the instruction. -/
theorem State.flagThenShift_reg_same (s : State) (flag : Bool) {r : Reg} (shift : Byte → Byte) (hr : r ≠ vf) :
    (s.flagThenShift flag r shift).reg r = shift (s.reg r) := by
  rw [State.flagThenShift, State.setReg_reg_same, State.setReg_reg_ne _ _ _ _ hr]

/-- VF keeps the flag where it is not the shifted register. -/
theorem State.flagThenShift_reg_vf (s : State) (flag : Bool) {r : Reg} (shift : Byte → Byte) (hr : r ≠ vf) :
    (s.flagThenShift flag r shift).reg vf = flagByte flag := by
  rw [State.flagThenShift, State.setReg_reg_ne _ _ _ _ hr.symm, State.setReg_reg_same]

/-- Where VF is the shifted register, the flag just written is what is shifted (D9). -/
theorem State.flagThenShift_vf_reg_vf (s : State) (flag : Bool) (shift : Byte → Byte) :
    (s.flagThenShift flag vf shift).reg vf = shift (flagByte flag) := by
  rw [State.flagThenShift, State.setReg_reg_same, State.setReg_reg_same]

/-! ## The statements -/

/-- Settles O37: the carry is the sum's overflow of a byte. -/
theorem addSetsCarry : Obligations.AddSetsCarry :=
  ⟨encoded_opcodeRow (.addReg 0 0), fun x y s => ⟨_, rfl, exec_frame (i := .addReg x y) rfl,
    s.writeFlagged_result_and_flag x (BitVec.toNat_add _ _) (flagByte_decide _)⟩⟩

/-- Settles O38: the flag compares the operands of the difference. -/
theorem subSetsStrictlyGreater : Obligations.SubSetsStrictlyGreater :=
  ⟨encoded_opcodeRow (.sub 0 0), fun x y s => ⟨_, rfl, exec_frame (i := .sub x y) rfl,
    s.writeFlagged_result_and_flag x (byte_sub_toNat _ _) (flagByte_decide _)⟩⟩

/-- Settles O39: as 8XY5 with the operands exchanged and register Y the destination. -/
theorem subnWritesRegisterY : Obligations.SubnWritesRegisterY :=
  ⟨encoded_opcodeRow (.subn 0 0), fun x y s => ⟨_, rfl, exec_frame (i := .subn x y) rfl,
    s.writeFlagged_result_and_flag y (byte_sub_toNat _ _) (flagByte_decide _)⟩⟩

/-- Settles O40: the flag is bit 0 of X; a flag shifted right is 0. -/
theorem shrShiftsRegisterY : Obligations.ShrShiftsRegisterY := by
  refine ⟨encoded_opcodeRow (.shr 0 0), fun x y s => ⟨_, rfl, exec_frame (i := .shr x y) rfl, ?_, ?_⟩⟩
  · intro hy
    rw [State.flagThenShift_reg_same _ _ _ hy, State.flagThenShift_reg_vf _ _ _ hy, shrFlag,
      flagByte_getLsbD_toNat, BitVec.toNat_ushiftRight, Nat.shiftRight_eq_div_pow]
    simp
  · rintro rfl
    rw [State.flagThenShift_vf_reg_vf]
    cases shrFlag (s.reg x) <;> rfl

/-- Settles O41: the flag is the one bit that the parameter names; a flag shifted left is doubled. -/
theorem shlTakesItsFlagByParameter : Obligations.ShlTakesItsFlagByParameter := by
  refine ⟨encoded_opcodeRow (.shl 0), fun x s => ⟨_, (flagByte (shlFlagOf s.params.shlFlag (s.reg x))).toNat, rfl,
    exec_frame (i := .shl x) rfl, ?_, ?_, ?_, ?_, ?_⟩⟩
  · intro hp
    rw [hp]
    exact flagByte_getLsbD_toNat _ 3
  · intro hp
    rw [hp, flagByte_shlFlagOf_lowNibble_toNat]
  · intro hp
    have hlt := (s.reg x).isLt
    rw [hp, shlFlagOf, flagByte_getLsbD_toNat]
    omega
  · intro hx
    rw [State.flagThenShift_reg_same _ _ _ hx, State.flagThenShift_reg_vf _ _ _ hx, BitVec.toNat_shiftLeft,
      Nat.shiftLeft_eq]
    exact ⟨rfl, rfl⟩
  · rintro rfl
    rw [State.flagThenShift_vf_reg_vf]
    cases shlFlagOf s.params.shlFlag (s.reg vf) <;> rfl

/-- Settles O35: one register is written, with no flag. -/
theorem loadsAndImmediateAdd : Obligations.LoadsAndImmediateAdd := by
  refine ⟨encoded_opcodeRow (.ldImm 0 0), encoded_opcodeRow (.addImm 0 0), encoded_opcodeRow (.ldReg 0 0),
    fun x nn s => ⟨?_, ?_⟩, fun x y s => ?_⟩
  · exact ⟨_, rfl, State.setReg_reg_same _ _ _, exec_frame (i := .ldImm x nn) rfl⟩
  · refine ⟨_, rfl, ?_, exec_frame (i := .addImm x nn) rfl⟩
    rw [State.setReg_reg_same, BitVec.toNat_add]
  · exact ⟨_, rfl, State.setReg_reg_same _ _ _, exec_frame (i := .ldReg x y) rfl⟩

/-- Settles O36: the bits of a bitwise operation are the operations of the bits. -/
theorem logicKeepsVf : Obligations.LogicKeepsVf := by
  refine ⟨encoded_opcodeRow (.or 0 0), encoded_opcodeRow (.and 0 0), encoded_opcodeRow (.xor 0 0),
    fun x y s => ⟨?_, ?_, ?_⟩⟩
  · refine ⟨_, rfl, fun k => ?_, exec_frame (i := .or x y) rfl⟩
    rw [State.setReg_reg_same, BitVec.getLsbD_or]
  · refine ⟨_, rfl, fun k => ?_, exec_frame (i := .and x y) rfl⟩
    rw [State.setReg_reg_same, BitVec.getLsbD_and]
  · refine ⟨_, rfl, fun k => ?_, exec_frame (i := .xor x y) rfl⟩
    rw [State.setReg_reg_same, BitVec.getLsbD_xor]

/-- Settles O42: the drawn byte is masked by NN, whatever it is, and the draw is counted. -/
theorem rndMasksTheDrawnByte : Obligations.RndMasksTheDrawnByte := by
  refine ⟨encoded_opcodeRow (.rnd 0 0), fun x nn s => ?_⟩
  have hmasked : (s.writeRandom (Config.drawByte s.draws) x nn).reg x = Config.drawByte s.draws &&& nn := by
    rw [State.writeRandom, State.countDraw_reg, State.setReg_reg_same]
  refine ⟨_, rfl, hmasked, ?_, ?_, rfl, exec_frame (i := .rnd x nn) rfl⟩
  · rintro rfl
    rw [hmasked]
    exact BitVec.and_zero
  · rintro rfl
    rw [hmasked]
    exact BitVec.and_allOnes

end Sys2Proof.Machine
end

section
/-! SUPPORT. The display (43_display.md): the sprite image as DXYN's dots, and what a drawn sprite leaves in the
framebuffer, in VF and in `redraw`. -/

namespace Sys2Proof.Machine

/-! ## Clearing (R211) -/

/-- A framebuffer whose every byte is 0 has every bit 0. -/
theorem Memory.bit_fb_of_read_zero {m : Memory} (h : ∀ a, 0xF00 ≤ a → a ≤ 0xFFF → m.read a = 0) {i : Nat}
    (hi : i < 2048) : m.bit 0xF00 i = false := by
  rw [Memory.bit, h _ (by omega) (by omega)]
  exact BitVec.getLsbD_zero

/-- Settles O43: no framebuffer cell stays listed, and every bit is a bit of a byte that reads as 0. -/
theorem clsClearsTheScreen : Obligations.ClsClearsTheScreen := by
  refine ⟨encoded_opcodeRow .cls, fun s hm => ?_⟩
  have hread := fun a => Memory.clearFramebuffer_inside hm (a := a)
  exact ⟨_, rfl, hread, fun _ => Memory.bit_fb_of_read_zero hread, rfl, exec_frame (i := .cls) rfl⟩

/-! ## The sprite image and the dots (R212, D6) -/

/-- The dots of the sprite that DXYN reads at I and places at (x[X], x[Y]). -/
def State.dots (s : State) (x y : Reg) (n : Nat) : List Dot :=
  spriteDots s.params.spriteMsbLeft (s.reg x).toNat (s.reg y).toNat (s.mem.readBytes s.iAddr n)

/-- The sprite image is where the dots are 1: `spriteAt` looks up the column and the row that the loop's wrap-around
takes to the pixel. -/
theorem State.spriteAt_iff_mem_dots (s : State) (x y : Reg) {n px py : Nat} (hn : n ≤ 32) (hx : px < 64)
    (hy : py < 32) : s.spriteAt x y n px py = true ↔ (px, py, true) ∈ s.dots x y n := by
  simp only [State.spriteAt, State.dots, mem_spriteDots, Memory.readBytes_length, Memory.readBytes_getElem,
    Prod.mk.injEq, Bool.and_eq_true, decide_eq_true_eq]
  constructor
  · rintro ⟨⟨hc, hr⟩, hbit⟩
    exact ⟨_, hr, _, hc, by omega, by omega, hbit.symm⟩
  · rintro ⟨r, hr, c, hc, hpx, hpy, hbit⟩
    have hcol : (px + 64 - (s.reg x).toNat % 64) % 64 = c := by omega
    have hrow : (py + 32 - (s.reg y).toNat % 32) % 32 = r := by omega
    rw [hcol, hrow]
    exact ⟨⟨hc, hr⟩, hbit.symm⟩

/-- The dots have a 1 at a pixel exactly where the sprite image does. -/
theorem State.hits_dots (s : State) (x y : Reg) {n px py : Nat} (hn : n ≤ 32) (hx : px < 64) (hy : py < 32) :
    Dot.hits (s.dots x y n) px py = s.spriteAt x y n px py := by
  rw [Bool.eq_iff_iff, Dot.hits_eq_true, s.spriteAt_iff_mem_dots x y hn hx hy]

/-- Some dot is a 1 at a place with a property exactly if some 1 of the sprite image is at one. -/
theorem State.any_dots_iff (s : State) (x y : Reg) {n : Nat} (hn : n ≤ 32) (q : Nat → Nat → Bool) :
    (s.dots x y n).any (fun p => p.2.2 && q p.1 p.2.1) = true ↔
      ∃ px py, px < 64 ∧ py < 32 ∧ s.spriteAt x y n px py = true ∧ q px py = true := by
  simp only [List.any_eq_true, Bool.and_eq_true]
  constructor
  · rintro ⟨⟨px, py, _⟩, hp, rfl, hq⟩
    obtain ⟨hx, hy⟩ := spriteDots_bound _ hp
    exact ⟨px, py, hx, hy, (s.spriteAt_iff_mem_dots x y hn hx hy).2 hp, hq⟩
  · rintro ⟨px, py, hx, hy, hsp, hq⟩
    exact ⟨_, (s.spriteAt_iff_mem_dots x y hn hx hy).1 hsp, rfl, hq⟩

/-! ## What a drawn sprite leaves (R212, D16) -/

/-- DXYN with its sprite in memory, or with no row, draws the rows it reads (D13). -/
theorem exec_drw_of_inside (x y : Reg) {n : Nat} {s : State} (h : n = 0 ∨ s.iAddr + n ≤ 0x1000) :
    exec (.drw x y n) s = .next (s.drawSprite x y (s.mem.readBytes s.iAddr n)) := by
  obtain ⟨t, ht⟩ := exec_eq_next (.drw x y n) s
  obtain ⟨_, rfl⟩ | ⟨_, hpast, _⟩ := State.orRaise_loadBytes_cases ht
  · exact ht
  · omega

/-- Drawing changes VF, `redraw` and the framebuffer alone. -/
theorem State.drawSprite_frame (s : State) (x y : Reg) (sprite : List Byte) :
    Frame [vf] [.redraw] 0xF00 256 s (s.drawSprite x y sprite) :=
  ⟨fun _ hr => s.drawSprite_reg x y sprite (List.ne_of_not_mem_cons hr),
    .drawSprite (by simp) s x y sprite, fun _ ha => s.drawSprite_read x y sprite ha⟩

section
variable {s : State} (hm : s.mem.wf = true) (x y : Reg) {n : Nat} (hn : n ≤ 32)
include hm hn

/-- A drawn sprite in terms of its dots: they fold over the screen from no collision and no change. -/
theorem State.drawSprite_dots :
    let t := s.drawSprite x y (s.mem.readBytes s.iAddr n)
    (∀ px py, px < 64 → t.mem.pixel px py = (s.mem.pixel px py ^^ Dot.hits (s.dots x y n) px py)) ∧
    t.reg vf = flagByte ((s.dots x y n).any fun p => p.2.2 && s.mem.pixel p.1 p.2.1) ∧
    t.redraw = (s.redraw || (s.dots x y n).any fun p => p.2.2) := by
  have hapart : (s.dots x y n).Pairwise Dot.Apart := spriteDots_apart _ _ _ _ (by simpa using hn)
  obtain ⟨hpixel, hcollision, hchanged⟩ := Drawing.dots hapart spriteDots_bound ⟨s.mem, false, false⟩ hm
  rw [Bool.false_or] at hcollision hchanged
  rw [← hcollision, ← hchanged, State.drawSprite, Drawing.rows_eq]
  exact ⟨hpixel, State.setReg_reg_same _ _ _, rfl⟩

/-- The new pixel is the old one exclusive or the sprite image. -/
theorem State.drawSprite_pixel {px py : Nat} (hx : px < 64) (hy : py < 32) :
    (s.drawSprite x y (s.mem.readBytes s.iAddr n)).mem.pixel px py =
      (s.mem.pixel px py ^^ s.spriteAt x y n px py) := by
  rw [(State.drawSprite_dots hm x y hn).1 px py hx, s.hits_dots x y hn hx hy]

/-- VF is the flag of a 1 of the sprite image over a set pixel. -/
theorem State.drawSprite_vf :
    ∃ collision : Bool, (s.drawSprite x y (s.mem.readBytes s.iAddr n)).reg vf = flagByte collision ∧
      (collision = true ↔
        ∃ px py, px < 64 ∧ py < 32 ∧ s.spriteAt x y n px py = true ∧ s.mem.pixel px py = true) :=
  ⟨_, (State.drawSprite_dots hm x y hn).2.1, s.any_dots_iff x y hn s.mem.pixel⟩

/-- `redraw` is set where it was, or by a 1 of the sprite image. -/
theorem State.drawSprite_redraw_iff :
    (s.drawSprite x y (s.mem.readBytes s.iAddr n)).redraw = true ↔
      (s.redraw = true ∨ ∃ px py, px < 64 ∧ py < 32 ∧ s.spriteAt x y n px py = true) := by
  have hany := s.any_dots_iff x y hn fun _ _ => true
  simp only [Bool.and_true, and_true] at hany
  rw [(State.drawSprite_dots hm x y hn).2.2, Bool.or_eq_true, hany]

end

/-- Settles O44: DXYN's loop draws dots at different places, and the dots are the sprite image. -/
theorem drwXorsTheSprite : Obligations.DrwXorsTheSprite := by
  refine ⟨encoded_opcodeRow (.drw 0 0 0), fun x y n s hn hm hi => ?_⟩
  have hn32 : n ≤ 32 := by omega
  obtain ⟨collision, hvf, hcollision⟩ := State.drawSprite_vf hm x y hn32
  refine ⟨_, exec_drw_of_inside x y hi, s.drawSprite_frame x y _,
    fun _ _ => State.drawSprite_pixel hm x y hn32, fun hover => ?_, fun hfree => ?_,
    State.drawSprite_redraw_iff hm x y hn32⟩
  · rw [hvf, hcollision.2 hover]
    rfl
  · have hno : collision = false := by
      refine Bool.eq_false_iff.2 fun hc => ?_
      obtain ⟨px, py, hx, hy, hsp, hset⟩ := hcollision.1 hc
      rw [hfree px py hx hy hsp] at hset
      cases hset
    rw [hvf, hno]
    rfl

/-! ## Drawing twice (R212) -/

/-- I is the same address where the frame does not list it. -/
theorem Frame.iAddr_eq {ds : List Reg} {es : List Special} {lo n : Nat} {s t : State} (h : Frame ds es lo n s t)
    (hi : Special.i ∉ es) : t.iAddr = s.iAddr := by
  obtain ⟨_, ⟨_, hireg, _⟩, _⟩ := h
  rw [State.iAddr, hireg hi, State.iAddr]

/-- Drawing leaves the sprite image where no coordinate is VF and the sprite lies below the framebuffer. -/
theorem State.spriteAt_of_frame {s t : State} (h : Frame [vf] [.redraw] 0xF00 256 s t) {x y : Reg} (hx : x ≠ vf)
    (hy : y ≠ vf) {n : Nat} (hi : s.iAddr + n ≤ 0xF00) (px py : Nat) :
    t.spriteAt x y n px py = s.spriteAt x y n px py := by
  have haddr := h.iAddr_eq (by simp)
  obtain ⟨hregs, ⟨_, _, _, _, _, _, _, _, hparams⟩, hbytes⟩ := h
  simp only [State.spriteAt, hregs x (by simpa using hx), hregs y (by simpa using hy), hparams, haddr]
  by_cases hr : (py + 32 - (s.reg y).toNat % 32) % 32 < n
  · rw [hbytes _ (.inl (by omega))]
  · simp [hr]

/-- Settles O45: the second sprite image is the first, so the second exclusive or undoes the first, and a pixel that
the first draw set lies under a 1 of the second. -/
theorem drwTwiceRestoresTheScreen : Obligations.DrwTwiceRestoresTheScreen := by
  intro x y n s t u hn hm hi hx hy hst htu
  obtain ⟨_, hs, hframe, hpix, _⟩ := drwXorsTheSprite.2 x y n s hn hm (.inr (by omega))
  obtain rfl := Host.Outcome.next.inj (hst.symm.trans hs)
  have himage := State.spriteAt_of_frame hframe hx hy hi
  have haddr := hframe.iAddr_eq (by simp)
  obtain ⟨_, ht, _, hpix', hover, _⟩ :=
    drwXorsTheSprite.2 x y n t hn (exec_mem_wf hst hm) (.inr (by omega))
  obtain rfl := Host.Outcome.next.inj (htu.symm.trans ht)
  refine ⟨fun px py hpx hpy => ?_, ?_⟩
  · rw [hpix' px py hpx hpy, hpix px py hpx hpy, himage, Bool.xor_assoc, Bool.xor_self, Bool.xor_false]
  · rintro ⟨px, py, hpx, hpy, hsp, hclear⟩
    refine hover ⟨px, py, hpx, hpy, by rw [himage, hsp], ?_⟩
    rw [hpix px py hpx hpy, hclear, hsp, Bool.false_xor]

end Sys2Proof.Machine
end

section
/-! SUPPORT. The key instructions (44_keys.md): the lowest pressed key as the first index of a range, and what FX0A
answers with it and without it. -/

namespace Sys2Proof.Machine

/-! ## The lowest pressed key (R232, D27) -/

/-- The 16 key indices are the numbers below 16. -/
theorem allKeys_eq_range : allKeys = List.range 16 := rfl

theorem Memory.lowestKey_eq_none_iff {m : Memory} : m.lowestKey = none ↔ ∀ k, k ≤ 15 → m.key k = false := by
  simp only [Memory.lowestKey, allKeys_eq_range, List.find?_range_eq_none, Bool.not_eq_true', Nat.lt_succ_iff]

theorem Memory.lowestKey_eq_some_iff {m : Memory} {k : Nat} :
    m.lowestKey = some k ↔ m.key k = true ∧ k ≤ 15 ∧ ∀ j, j < k → m.key j = false := by
  simp only [Memory.lowestKey, allKeys_eq_range, List.find?_range_eq_some, List.mem_range, Bool.not_eq_true',
    Nat.lt_succ_iff]

/-! ## FX0A on each side (R232) -/

/-- With no key pressed FX0A sets pc back to itself. -/
theorem exec_ldKey_of_lowestKey_none (x : Reg) {s : State} (h : s.mem.lowestKey = none) :
    exec (.ldKey x) s = .next (s.setPc (s.pc - 2)) := by
  simp only [exec, execLdKey, h]

/-- With a key pressed FX0A writes the lowest one's index to its register. -/
theorem exec_ldKey_of_lowestKey_some (x : Reg) {s : State} {k : Nat} (h : s.mem.lowestKey = some k) :
    exec (.ldKey x) s = .next (s.setReg x (BitVec.ofNat 8 k)) := by
  simp only [exec, execLdKey, h]

/-- Settles O48: `lowestKey` is none exactly where no key is pressed, and is otherwise the pressed key with none below
it; where no key is pressed FX0A writes pc alone, else register X alone. -/
theorem keyWaitRepeatsOrTakesTheLowestKey : Obligations.KeyWaitRepeatsOrTakesTheLowestKey := by
  refine ⟨encoded_opcodeRow (.ldKey 0), fun x s => ⟨fun hnone => ?_, fun k hk hdown hlow => ?_⟩⟩
  · have hwait := exec_ldKey_of_lowestKey_none x (Memory.lowestKey_eq_none_iff.2 hnone)
    exact ⟨_, hwait, rfl, fun _ _ => rfl, by simp [SpecialsKeptBut], .of_mem_eq rfl _ _⟩
  · have htake := exec_ldKey_of_lowestKey_some x (Memory.lowestKey_eq_some_iff.2 ⟨hdown, hk, hlow⟩)
    have hindex : (BitVec.ofNat 8 k).toNat = k := Nat.mod_eq_of_lt (by omega)
    refine ⟨_, htake, by rw [State.setReg_reg_same, hindex], fun r hr => ?_, by simp [SpecialsKeptBut],
      .of_mem_eq rfl _ _⟩
    exact State.setReg_reg_ne _ _ _ _ (List.ne_of_not_mem_cons hr)

/-! ## The key skips (R230, R231, D25) -/

/-- A skip on a negated condition adds 2 to pc where the condition fails. -/
theorem State.skipIf_not_pc (s : State) (c : Bool) : (s.skipIf (!c)).pc = if c then s.pc else s.pc + 2 := by
  cases c <;> rfl

/-- Settles O47: the condition of the two skips is the key's bit in its byte of the key window, and its negation. -/
theorem keySkips : Obligations.KeySkips := by
  refine ⟨encoded_opcodeRow (.skp 0), encoded_opcodeRow (.sknp 0), fun x s => ⟨?_, ?_⟩⟩
  · exact ⟨_, rfl, State.skipIf_pc _ _, exec_frame (i := .skp x) rfl⟩
  · exact ⟨_, rfl, State.skipIf_not_pc _ _, exec_frame (i := .sknp x) rfl⟩

end Sys2Proof.Machine
end

section
/-! SUPPORT. The timer instructions (45_timers.md). -/

namespace Sys2Proof.Machine

/-- Settles O49: each move is one write, of register X, DT or ST, and its frame is that of every instruction. -/
theorem timerInstructionsMoveOneByte : Obligations.TimerInstructionsMoveOneByte := by
  refine ⟨encoded_opcodeRow (.ldFromDt 0), encoded_opcodeRow (.ldToDt 0), encoded_opcodeRow (.ldToSt 0),
    fun x s => ⟨?_, ?_, ?_⟩⟩
  · exact ⟨_, rfl, State.setReg_reg_same _ _ _, exec_frame (i := .ldFromDt x) rfl⟩
  · exact ⟨_, rfl, State.setDt_dt _ _, exec_frame (i := .ldToDt x) rfl⟩
  · exact ⟨_, rfl, State.setSt_st _ _, exec_frame (i := .ldToSt x) rfl⟩

end Sys2Proof.Machine
end

section
/-! SUPPORT. The address register and the memory transfers through it (46_index_memory.md): what each transfer answers
where its window lies in memory, and the bytes and registers it then holds. -/

namespace Sys2Proof.Machine

/-! ## Transfers inside memory (D13) -/

/-- FX33 with its three bytes in memory writes the digits. -/
theorem exec_ldBcd_of_inside (x : Reg) {s : State} (h : s.iAddr + 2 ≤ 0xFFF) :
    exec (.ldBcd x) s = .next (s.setMem (s.mem.writeBytes s.iAddr (bcdDigits (s.reg x)))) := by
  have hfits : s.iAddr + (bcdDigits (s.reg x)).length ≤ 0x1000 := by
    simp only [bcdDigits, List.length_cons, List.length_nil]
    omega
  rw [exec, execLdBcd, storeBytes_of_le hfits, State.orRaise_ok]

/-- FX55 with its bytes in memory writes the registers' values. -/
theorem exec_store_of_inside (x : Reg) {s : State} (h : s.iAddr + x.val ≤ 0xFFF) :
    exec (.store x) s = .next (s.setMem (s.mem.writeBytes s.iAddr (s.regValues x))) := by
  have hfits : s.iAddr + (s.regValues x).length ≤ 0x1000 := by
    rw [State.regValues_length]
    omega
  rw [exec, execStore, storeBytes_of_le hfits, State.orRaise_ok]

/-- FX65 with its bytes in memory writes them to the registers. -/
theorem exec_load_of_inside (x : Reg) {s : State} (h : s.iAddr + x.val ≤ 0xFFF) :
    exec (.load x) s = .next (s.setRegs (regsUpTo x) (s.mem.readBytes s.iAddr (x.val + 1))) := by
  rw [exec, execLoad, loadBytes_of_le (by omega), State.orRaise_ok]

/-- A sequence of writes to memory changes only the bytes written. -/
theorem State.setMem_writeBytes_frame (s : State) (a : Nat) (bs : List Byte) :
    Frame [] [] a bs.length s (s.setMem (s.mem.writeBytes a bs)) :=
  ⟨fun _ _ => rfl, by simp [SpecialsKeptBut], .of_writeBytes rfl rfl⟩

/-! ## The decimal digits (R263) -/

/-- The three bytes of the digits, written inside memory, read as the value's quotients by 100, 10 and 1, the last two
modulo 10. -/
theorem Memory.read_writeBytes_bcdDigits {m : Memory} (hm : m.wf = true) {a : Nat} (ha : a + 2 ≤ 0xFFF) (v : Byte) :
    ((m.writeBytes a (bcdDigits v)).read a).toNat = v.toNat / 100 ∧
    ((m.writeBytes a (bcdDigits v)).read (a + 1)).toNat = v.toNat / 10 % 10 ∧
    ((m.writeBytes a (bcdDigits v)).read (a + 2)).toNat = v.toNat % 10 := by
  have hv := v.isLt
  have hread := Memory.read_writeBytes_inside hm (bcdDigits v) (show a + 3 ≤ 0x1000 by omega)
  have hdigit (j d : Nat) (hj : j < 3) (hd : d < 256) (hjd : (bcdDigits v)[j] = BitVec.ofNat 8 d) :
      ((m.writeBytes a (bcdDigits v)).read (a + j)).toNat = d := by
    rw [hread j hj, hjd, BitVec.toNat_ofNat, Nat.mod_eq_of_lt hd]
  exact ⟨hdigit 0 _ (by decide) (by omega) rfl, hdigit 1 _ (by decide) (by omega) rfl,
    hdigit 2 _ (by decide) (by omega) rfl⟩

/-- Settles O52: the three bytes are the quotients that make up the register's value. -/
theorem bcdStoresTheDecimalDigits : Obligations.BcdStoresTheDecimalDigits := by
  refine ⟨encoded_opcodeRow (.ldBcd 0), fun x s hm hi => ?_⟩
  have hv := (s.reg x).isLt
  obtain ⟨hhundreds, htens, hunits⟩ := Memory.read_writeBytes_bcdDigits hm hi (s.reg x)
  refine ⟨_, exec_ldBcd_of_inside x hi, ?_, ?_, ?_, ?_, s.setMem_writeBytes_frame s.iAddr _⟩
  · rw [State.setMem_mem, hhundreds, htens, hunits]
    omega
  · rw [State.setMem_mem, hhundreds]
    omega
  · rw [State.setMem_mem, htens]
    omega
  · rw [State.setMem_mem, hunits]
    omega

/-! ## Registers 0 to X (R264, R265) -/

/-- Settles O53: byte `r` of the ones written is register `r`. -/
theorem storeWritesRegistersZeroToX : Obligations.StoreWritesRegistersZeroToX := by
  refine ⟨encoded_opcodeRow (.store 0), fun x s hm hi => ?_⟩
  have hexec := exec_store_of_inside x hi
  have hframe := s.setMem_writeBytes_frame s.iAddr (s.regValues x)
  rw [State.regValues_length] at hframe
  exact ⟨_, hexec, fun r hr => exec_store_read hm hi hr hexec, hframe⟩

/-- Writing a list of bytes to registers 0 to X gives register `r` the byte `r`. -/
theorem State.setRegs_regsUpTo_reg (s : State) {x r : Reg} (hr : r ≤ x) {bs : List Byte} (hb : r.val < bs.length) :
    (s.setRegs (regsUpTo x) bs).reg r = bs[r.val] := by
  have hget := regsUpTo_getElem? x r
  rw [if_pos hr, List.getElem?_eq_some_iff] at hget
  obtain ⟨hlt, hreg⟩ := hget
  simpa only [hreg] using s.setRegs_reg_getElem (regsUpTo_nodup x) r.val hlt hb

/-- Settles O54: register `r` up to X takes the byte at I + r, and the registers above X are not in the list. -/
theorem loadReadsRegistersZeroToX : Obligations.LoadReadsRegistersZeroToX := by
  refine ⟨encoded_opcodeRow (.load 0), fun x s hi => ?_⟩
  have hkept := fun r => s.setRegs_reg_kept (regsUpTo x) (s.mem.readBytes s.iAddr (x.val + 1)) (q := r)
  refine ⟨_, exec_load_of_inside x hi, fun r hr => ?_, fun r hr => hkept r ?_,
    hkept, by simp [SpecialsKeptBut], .of_mem_eq (State.setRegs_mem _ _ _) _ _⟩
  · have hlt : r.val < (s.mem.readBytes s.iAddr (x.val + 1)).length := by
      rw [Memory.readBytes_length]
      exact Nat.lt_succ_of_le hr
    rw [s.setRegs_regsUpTo_reg hr hlt, Memory.readBytes_getElem]
  · rw [mem_regsUpTo]
    exact not_le_of_gt hr

/-! ## The address register (R260 to R262) -/

/-- FX1E with the sum in memory writes it to I. -/
theorem exec_addI_of_inside (x : Reg) {s : State} (h : s.iAddr + (s.reg x).toNat ≤ 0xFFF) :
    exec (.addI x) s = .next (s.setI (BitVec.ofNat 16 (s.iAddr + (s.reg x).toNat))) := by
  obtain ⟨t, ht⟩ := exec_eq_next (.addI x) s
  obtain ⟨hpast, _⟩ | ⟨_, rfl⟩ := exec_addI_cases ht
  · omega
  · exact ht

/-- FX1E with the sum past memory raises (D12). -/
theorem exec_addI_past (x : Reg) {s : State} (h : 0xFFF < s.iAddr + (s.reg x).toNat) :
    exec (.addI x) s = .next (s.raise (.addressOverflow s.instrAddr (s.iAddr + (s.reg x).toNat))) := by
  obtain ⟨t, ht⟩ := exec_eq_next (.addI x) s
  obtain ⟨_, rfl⟩ | ⟨hsum, _⟩ := exec_addI_cases ht
  · exact ht
  · omega

/-- Settles O50: I takes the zero-extended NNN, or the glyph address, which is five times the register. -/
theorem ldIAndGlyphAddress : Obligations.LdIAndGlyphAddress :=
  ⟨encoded_opcodeRow (.ldI 0), encoded_opcodeRow (.ldFont 0),
    fun nnn _ => ⟨_, rfl, addrOf_toNat nnn, exec_frame (i := .ldI nnn) rfl⟩,
    fun x s => ⟨_, rfl, glyphAddr_toNat (s.reg x), exec_frame (i := .ldFont x) rfl⟩⟩

/-- Settles O51: the two answers of FX1E; a sum up to 0xFFF fits in I. -/
theorem addIStaysInMemory : Obligations.AddIStaysInMemory := by
  refine ⟨encoded_opcodeRow (.addI 0), fun x s => ⟨fun hsum => ?_, fun hpast => exec_addI_past x hpast⟩⟩
  refine ⟨_, exec_addI_of_inside x hsum, ?_, fun _ _ => rfl, by simp [SpecialsKeptBut], .of_mem_eq rfl _ _⟩
  rw [State.setI_iReg, BitVec.toNat_ofNat, State.iAddr]
  exact Nat.mod_eq_of_lt (hsum.trans_lt (by decide))

end Sys2Proof.Machine
end

section
/-! SUPPORT. Faults (60_exceptions.md R300 to R309): which instruction raises which kind, the state a raise leaves, and
the four accesses at I that run past memory. -/

namespace Sys2Proof.Machine

/-! ## What an instruction raises (R301, R303 to R306) -/

/-- The instructions that load or store the bytes at I. -/
inductive AccessesBytesAtI : Instr → Prop
  | drw (x y : Reg) (n : Nat) : AccessesBytesAtI (.drw x y n)
  | ldBcd (x : Reg) : AccessesBytesAtI (.ldBcd x)
  | store (x : Reg) : AccessesBytesAtI (.store x)
  | load (x : Reg) : AccessesBytesAtI (.load x)

/-- The fault kinds each instruction can raise in its execute phase; `pastStack` needs an sp that no run reaches
(assumption log 12). -/
inductive MayRaise (s : State) : Instr → FaultKind → Prop
  | stackOverflow (nnn : Addr12) : MayRaise s (.call nnn) (.stackOverflow s.instrAddr s.sp)
  | stackUnderflow : MayRaise s .ret (.stackUnderflow s.instrAddr s.sp)
  | pastStack {a : Nat} (hsp : 0x1000 < s.sp.toNat) (ha : 0xFFF < a) : MayRaise s .ret (.memoryOutOfRange a)
  | addressOverflow {x : Reg} (hsum : 0xFFF < s.iAddr + (s.reg x).toNat) :
      MayRaise s (.addI x) (.addressOverflow s.instrAddr (s.iAddr + (s.reg x).toNat))
  | memoryOutOfRange {i : Instr} {a : Nat} (hi : AccessesBytesAtI i) (ha : 0xFFF < a) :
      MayRaise s i (.memoryOutOfRange a)

/-- The lowest offending address of an access is past the image (R303). -/
theorem lowestBadAddr_gt (a : Nat) : 0xFFF < if a > 0xFFF then a else 0x1000 := by
  split <;> omega

theorem loadBytes_error {m : Memory} {a n : Nat} {k : FaultKind} (h : loadBytes m a n = .error k) :
    ∃ bad, 0xFFF < bad ∧ k = .memoryOutOfRange bad := by
  obtain ⟨_, e⟩ | ⟨_, _, e⟩ := loadBytes_cases m a n <;> cases e.symm.trans h
  exact ⟨_, lowestBadAddr_gt a, rfl⟩

theorem storeBytes_error {m : Memory} {a : Nat} {bs : List Byte} {k : FaultKind}
    (h : storeBytes m a bs = .error k) : ∃ bad, 0xFFF < bad ∧ k = .memoryOutOfRange bad := by
  obtain ⟨_, e⟩ | ⟨_, _, e⟩ := storeBytes_cases m a bs <;> cases e.symm.trans h
  exact ⟨_, lowestBadAddr_gt a, rfl⟩

/-- An instruction that is one access at I keeps the fault record, or raises what the access raises. -/
theorem State.orRaise_fault_cases {i : Instr} (hi : AccessesBytesAtI i) {α : Type} {s t : State}
    {access : Except FaultKind α} {f : α → State} (h : s.orRaise access f = .next t)
    (herror : ∀ {k}, access = .error k → ∃ bad, 0xFFF < bad ∧ k = .memoryOutOfRange bad)
    (hf : ∀ v, (f v).fault = s.fault) : t.fault = s.fault ∨ ∃ k, MayRaise s i k ∧ t = s.raise k := by
  obtain ⟨v, _, rfl⟩ | ⟨k, hk, rfl⟩ := State.orRaise_cases h
  · exact .inl (hf v)
  · obtain ⟨_, hbad, rfl⟩ := herror hk
    exact .inr ⟨_, .memoryOutOfRange hi hbad, rfl⟩

/-- An instruction keeps the fault record, or raises one of its own kinds and changes nothing else. -/
theorem exec_fault_cases {i : Instr} {s t : State} (h : exec i s = .next t) :
    t.fault = s.fault ∨ ∃ k, MayRaise s i k ∧ t = s.raise k := by
  by_cases hi : Special.fault ∈ destSpecials i
  · cases i with
    | call nnn =>
      obtain ⟨_, rfl⟩ | ⟨_, rfl⟩ := exec_call_cases h
      · exact .inr ⟨_, .stackOverflow nnn, rfl⟩
      · exact .inl rfl
    | ret =>
      obtain ⟨_, rfl⟩ | ⟨hsp, _, ha, rfl⟩ | ⟨_, _, rfl⟩ := exec_ret_cases h
      · exact .inr ⟨_, .stackUnderflow, rfl⟩
      · exact .inr ⟨_, .pastStack hsp ha, rfl⟩
      · exact .inl rfl
    | addI x =>
      obtain ⟨hsum, rfl⟩ | ⟨_, rfl⟩ := exec_addI_cases h
      · exact .inr ⟨_, .addressOverflow hsum, rfl⟩
      · exact .inl rfl
    | drw x y n => exact State.orRaise_fault_cases (.drw x y n) h loadBytes_error (fun _ => rfl)
    | ldBcd x => exact State.orRaise_fault_cases (.ldBcd x) h storeBytes_error (fun _ => rfl)
    | store x => exact State.orRaise_fault_cases (.store x) h storeBytes_error (fun _ => rfl)
    | load x => exact State.orRaise_fault_cases (.load x) h loadBytes_error (s.setRegs_fault (regsUpTo x))
    | _ => simp [destSpecials] at hi
  · obtain ⟨_, _, _, _, _, _, hkept, _⟩ := exec_specialsKeptBut_destSpecials h
    exact .inl (hkept hi)

/-- An instruction that ends with a fault recorded, from a state with none, raised it. -/
theorem exec_raise_of_fault {i : Instr} {s t : State} {r : FaultRecord} (h : exec i s = .next t)
    (hs : s.fault = none) (ht : t.fault = some r) :
    MayRaise s i r.kind ∧ r.addr = s.instrAddr ∧ t = s.raise r.kind := by
  obtain hkept | ⟨k, hk, rfl⟩ := exec_fault_cases h
  · simp [hkept, hs] at ht
  · cases ht
    exact ⟨hk, rfl, rfl⟩

/-- A step that ends with a fault recorded raised it at its own address: in the fetch, or after the advance (R300). -/
theorem step_raise_of_fault {s t : State} {r : FaultRecord} (h : step s = .next t) (ht : t.fault = some r) :
    s.fault = none ∧ r.addr = s.pc ∧
    ((0xFFE < s.pc.toNat ∧ t = s.raiseAt s.pc r.kind) ∨
     (s.pc.toNat ≤ 0xFFE ∧ t = s.advance.raiseAt s.pc r.kind)) := by
  obtain ⟨hs, hcases⟩ := step_cases h
  obtain ⟨hpc, hfetch⟩ | ⟨hpc, hfetch⟩ := s.fetch_cases
  · obtain ⟨_, i, _, _, hexec⟩ | ⟨_, _, _, _, rfl⟩ | ⟨_, hk, _⟩ := hcases
    · obtain ⟨_, haddr, rfl⟩ := exec_raise_of_fault hexec hs ht
      rw [State.advance_instrAddr] at haddr
      exact ⟨hs, haddr, .inr ⟨hpc, by rw [State.raise, State.advance_instrAddr]⟩⟩
    · cases ht
      exact ⟨hs, rfl, .inr ⟨hpc, rfl⟩⟩
    · cases hfetch.symm.trans hk
  · obtain ⟨_, _, hw, _⟩ | ⟨_, _, hw, _⟩ | ⟨_, _, rfl⟩ := hcases
    · cases hfetch.symm.trans hw
    · cases hfetch.symm.trans hw
    · cases ht
      exact ⟨hs, rfl, .inl ⟨hpc, rfl⟩⟩

/-- Settles O10: the step raised the fault itself, and a raise writes the record alone, before or after the advance. -/
theorem everyFaultIsPrecise : Obligations.EveryFaultIsPrecise := by
  rintro s t ⟨k, a⟩ h ht
  obtain ⟨hs, rfl, ⟨hpc, rfl⟩ | ⟨hpc, rfl⟩⟩ := step_raise_of_fault h ht
  · exact ⟨hs, rfl, .inl ⟨hpc, rfl⟩, rfl⟩
  · exact ⟨hs, rfl, .inr ⟨hpc, rfl⟩, rfl⟩

/-- Settles O11: the kinds of `MayRaise`, of which the invariant rules out `pastStack`. -/
theorem onlyListedInstructionsRaise : Obligations.OnlyListedInstructionsRaise := by
  rintro i s t ⟨kind, a⟩ ⟨_, _, hsp, _⟩ hs h ht
  obtain ⟨hraise, _⟩ := exec_raise_of_fault h hs ht
  cases hraise with
  | stackOverflow nnn => exact .inl ⟨nnn, rfl, rfl⟩
  | stackUnderflow => exact .inr (.inl ⟨rfl, rfl⟩)
  | pastStack hpast _ => omega
  | addressOverflow hsum => exact .inr (.inr (.inl ⟨_, rfl, hsum, rfl⟩))
  | memoryOutOfRange hi ha =>
    refine .inr (.inr (.inr ⟨?_, _, ha, rfl⟩))
    cases hi with
    | drw x y n => exact .inl ⟨x, y, n, rfl⟩
    | ldBcd x => exact .inr (.inl ⟨x, rfl⟩)
    | store x => exact .inr (.inr (.inl ⟨x, rfl⟩))
    | load x => exact .inr (.inr (.inr ⟨x, rfl⟩))

/-! ## Accesses at I past memory (R303, D13) -/

/-- An instruction that loads past the image raises and does nothing else. -/
theorem State.orRaise_loadBytes_past {s : State} {n : Nat} (f : List Byte → State) (hn : n ≠ 0)
    (h : 0x1000 < s.iAddr + n) : s.orRaise (loadBytes s.mem s.iAddr n) f =
      .next (s.raise (.memoryOutOfRange (if s.iAddr > 0xFFF then s.iAddr else 0x1000))) := by
  rw [loadBytes_past hn h, State.orRaise_error]

/-- An instruction that stores past the image raises and stores nothing. -/
theorem State.orRaise_storeBytes_past {s : State} {n : Nat} {bs : List Byte} (f : Memory → State)
    (hlen : bs.length = n) (hn : n ≠ 0) (h : 0x1000 < s.iAddr + n) :
    s.orRaise (storeBytes s.mem s.iAddr bs) f =
      .next (s.raise (.memoryOutOfRange (if s.iAddr > 0xFFF then s.iAddr else 0x1000))) := by
  subst hlen
  rw [storeBytes_past (List.length_pos_iff.1 (Nat.pos_of_ne_zero hn)) h, State.orRaise_error]

/-- Settles O46: the access is of N, of 3 or of X + 1 bytes, and its bound check comes before any write. -/
theorem accessPastMemoryRaises : Obligations.AccessPastMemoryRaises := by
  refine fun s => ⟨fun x y n hn h => ?_, fun x h => ?_, fun x h => ?_, fun x h => ?_⟩
  · exact State.orRaise_loadBytes_past (s.drawSprite x y) (by omega) (by omega)
  · exact State.orRaise_storeBytes_past s.setMem (n := 3) rfl (by omega) (by omega)
  · exact State.orRaise_storeBytes_past s.setMem (s.regValues_length x) (by omega) (by omega)
  · exact State.orRaise_loadBytes_past (s.setRegs (regsUpTo x)) (by omega) (by omega)

end Sys2Proof.Machine
end

section
/-! SUPPORT. The tick engine (60_exceptions.md R316, R317): the timers after any number of ticks, and the tone. -/

namespace Sys2Proof.Machine

/-! ## Counting down (R316) -/

theorem countDown_toNat (t : Byte) : (countDown t).toNat = t.toNat - 1 := by
  unfold countDown
  split
  · next h => rw [h]; rfl
  · next h => bv_omega

theorem countDown_iterate_toNat (n : Nat) (t : Byte) : (countDown^[n] t).toNat = t.toNat - n := by
  induction n with
  | zero => rfl
  | succ n ih => rw [Function.iterate_succ_apply', countDown_toNat, ih, Nat.sub_sub]

/-- Ticks count each timer down on its own and touch nothing else. -/
theorem State.tick_iterate (n : Nat) (s : State) :
    State.tick^[n] s = { s with dt := countDown^[n] s.dt, st := countDown^[n] s.st } := by
  induction n with
  | zero => rfl
  | succ n ih => simp only [Function.iterate_succ_apply', ih, State.tick, State.setDt, State.setSt]

/-- Settles O55: the ticks are as many counts down of each timer. -/
theorem tickCountsEachTimerDown : Obligations.TickCountsEachTimerDown := by
  intro n s
  rw [State.tick_iterate]
  exact ⟨countDown_iterate_toNat n s.dt, countDown_iterate_toNat n s.st, rfl⟩

/-! ## The tone (R317, D18) -/

/-- The tone sounds exactly when the tick takes ST from 1 to 0. -/
theorem State.tickTone_iff (s : State) : s.tickTone = true ↔ s.st.toNat = 1 ∧ s.tick.st.toNat = 0 := by
  have htick : s.tick.st.toNat = s.st.toNat - 1 := countDown_toNat s.st
  rw [State.tickTone, decide_eq_true_iff, htick]
  bv_omega

/-- A step answers ok or its fault, never a tick's output (40_fetch_execute.md R127). -/
theorem stepResponse_ne_ticked (t : State) (tone : Bool) : stepResponse t ≠ .ticked tone := by
  unfold stepResponse
  split <;> simp

/-- Only a tick answers with a tick's output. -/
theorem eq_tick_of_transact_ticked {tr : Transaction} {s t : State} {tone : Bool}
    (h : transact tr s = .next (t, .ticked tone)) : tr = .tick := by
  cases tr with
  | tick => rfl
  | step =>
    simp only [transact] at h
    split at h
    · injection h with h
      exact absurd (congrArg Prod.snd h) (stepResponse_ne_ticked _ tone)
    · cases h
    · cases h
  | keyDown _ | keyUp _ => simp only [transact] at h; split at h <;> cases h
  | keys | framebuffer | redrawNeeded | ackRedraw | readState | disassemble _ => cases h

/-- Settles O56: the tick's output is `tickTone`, and the other transactions answer with other responses. -/
theorem toneOnlyWhenATickEndsTheSound : Obligations.ToneOnlyWhenATickEndsTheSound :=
  ⟨fun s => ⟨_, rfl, s.tickTone_iff⟩, fun _ _ _ h => eq_tick_of_transact_ticked h⟩

end Sys2Proof.Machine
end

section
/-! SUPPORT. The host's key transactions and queries (60_exceptions.md R319, R320, R323), and the end of a run
(R326). -/

namespace Sys2Proof.Machine

/-! ## Keys (R320, D20) -/

/-- A key transaction with a key up to 15 sets the key's bit. -/
theorem State.keyTo_of_le (s : State) {k : Nat} (hk : k ≤ 15) (pressed : Bool) :
    s.keyTo k pressed = .next (s.setMem (s.mem.setBit Config.keyBase k pressed)) := if_pos hk

/-- A key transaction with a larger index is refused. -/
theorem State.keyTo_of_gt (s : State) {k : Nat} (hk : 15 < k) (pressed : Bool) :
    s.keyTo k pressed = .refused (.keyIndexOutOfRange k) := if_neg (Nat.not_le.2 hk)

/-- A bit of the key window written: that key, the other keys, the frame, and no change where the bit is so already. -/
theorem State.setMem_setBit_key {s : State} (hm : s.mem.wf = true) (k : Nat) (pressed : Bool) :
    let t := s.setMem (s.mem.setBit Config.keyBase k pressed)
    t.mem.key k = pressed ∧ (∀ j, j ≠ k → t.mem.key j = s.mem.key j) ∧
      Frame [] [] (0x050 + k / 8) 1 s t ∧ (s.mem.key k = pressed → t = s) := by
  have hkey : ∀ j, (s.mem.setBit Config.keyBase k pressed).key j = if j = k then pressed else s.mem.key j :=
    fun j => Memory.bit_setBit hm Config.keyBase k j pressed
  refine ⟨(hkey k).trans (if_pos rfl), fun j hj => (hkey j).trans (if_neg hj),
    ⟨fun _ _ => rfl, by simp [SpecialsKeptBut], fun a ha => ?_⟩, ?_⟩
  · exact Memory.read_setBit_ne _ _ _ _ (by simp only [Config.keyBase]; omega)
  · rintro rfl
    exact congrArg s.setMem (Memory.setBit_bit hm Config.keyBase k)

/-- Settles O57: both transactions write the key's bit, or are refused. -/
theorem keyTransactionsSetOneKey : Obligations.KeyTransactionsSetOneKey := by
  refine fun s k => ⟨fun hm hk => ⟨?_, ?_⟩, fun hk => ⟨?_, ?_⟩⟩
  · exact ⟨_, by simp only [transact, State.keyDown, s.keyTo_of_le hk], State.setMem_setBit_key hm k true⟩
  · exact ⟨_, by simp only [transact, State.keyUp, s.keyTo_of_le hk], State.setMem_setBit_key hm k false⟩
  · simp only [transact, State.keyDown, s.keyTo_of_gt hk]
  · simp only [transact, State.keyUp, s.keyTo_of_gt hk]

/-! ## Queries (R319, R323, D4, D29) -/

theorem State.keys_length (s : State) : s.keys.length = 16 := rfl

/-- Entry `k` of the key vector is bit `k` of the key window. -/
theorem State.keys_getElem (s : State) (k : Nat) (h : k < s.keys.length) : s.keys[k] = s.mem.bit 0x050 k := by
  simp only [State.keys, allKeys_eq_range, List.getElem_map, List.getElem_range, Memory.key]

theorem State.framebuffer_length (s : State) : s.framebuffer.length = 2048 := by
  rw [State.framebuffer, List.length_map, List.length_range]

/-- Entry `y * 64 + x` of the framebuffer query is the pixel (x, y). -/
theorem State.framebuffer_getElem? (s : State) {x y : Nat} (hx : x < 64) (hy : y < 32) :
    s.framebuffer[y * 64 + x]? = some (s.mem.pixel x y) := by
  rw [State.framebuffer, List.getElem?_map, List.getElem?_range (by omega)]
  rfl

/-- Entry `a` of the debug query's memory is the byte at `a`. -/
theorem State.debugView_mem_getElem? (s : State) {a : Nat} (ha : a ≤ 0xFFF) :
    s.debugView.mem[a]? = some (s.mem.read a) := by
  have hlt : a < (s.mem.readBytes 0 Config.memSize).length := by
    rw [Memory.readBytes_length]
    exact Nat.lt_succ_of_le ha
  rw [State.debugView, List.getElem?_eq_getElem hlt, Memory.readBytes_getElem, Nat.zero_add]

/-- Settles O58: each query answers the state it was asked in, with the entries of its list read one by one. -/
theorem queriesChangeNothing : Obligations.QueriesChangeNothing := fun s =>
  ⟨rfl, rfl, ⟨_, rfl, s.keys_length, s.keys_getElem⟩,
    ⟨_, rfl, s.framebuffer_length, fun _ _ hx hy => s.framebuffer_getElem? hx hy⟩,
    ⟨_, rfl, rfl, rfl, rfl, rfl, rfl, rfl, Memory.readBytes_length _ _ _,
      fun _ ha => s.debugView_mem_getElem? ha⟩,
    fun _ => rfl⟩

/-! ## The end of a run (R326, D30) -/

/-- An address of memory as the NNN of an instruction is the address. -/
theorem addrOf_setWidth {a : Word} (h : a.toNat ≤ 0xFFF) : addrOf (a.setWidth 12) = a := by
  unfold addrOf
  bv_omega

/-- The word 1NNN that jumps to `a` is 0x1000 | a. -/
theorem encode_jp_eq_or {a : Word} (h : a.toNat ≤ 0xFFF) :
    encode (.jp (a.setWidth 12)) = BitVec.ofNat 16 (0x1000 ||| a.toNat) := by
  have hlt : a.toNat < 2 ^ 12 := Nat.lt_succ_of_le h
  have hor : 0x1000 ||| a.toNat = 0x1000 + a.toNat := (Nat.two_pow_add_eq_or_of_lt hlt 1).symm
  apply BitVec.eq_of_toNat_eq
  rw [encode, wordGNNN_toNat, hor, BitVec.toNat_setWidth, Nat.mod_eq_of_lt hlt, BitVec.toNat_ofNat]
  exact (Nat.mod_eq_of_lt (by omega)).symm

/-- What a finished state is: no fault, pc in memory, and the fetched word the jump to pc. -/
theorem State.fetch_of_finished {s : State} (h : s.finished = true) :
    s.fault = none ∧ s.pc.toNat ≤ 0xFFE ∧ s.fetch = .ok (encode (.jp (s.pc.setWidth 12))) := by
  simp only [State.finished, Bool.and_eq_true, decide_eq_true_eq] at h
  obtain ⟨⟨hf, hpc⟩, hword⟩ := h
  refine ⟨hf, hpc, ?_⟩
  split at hword
  · next n hn =>
    rw [State.fetch, hn, encode_jp_eq_or (by omega), of_decide_eq_true hword]
  · cases hword

/-- Settles O60: the step runs the jump to pc from the state after the advance, which puts pc back. -/
theorem finishedStateStays : Obligations.FinishedStateStays := by
  intro s h
  obtain ⟨hf, hpc, hfetch⟩ := State.fetch_of_finished h
  have haddr : addrOf (s.pc.setWidth 12) = s.pc := addrOf_setWidth (by omega)
  calc step s = exec (.jp (s.pc.setWidth 12)) s.advance := step_of_decode hf hfetch (decode_encode rfl)
    _ = .next (s.advance.setPc s.pc) := by rw [exec, execJp, haddr]
    _ = .next s := rfl

end Sys2Proof.Machine
end

section
/-! SUPPORT. The memory image of a launch that is not refused, byte by byte. -/

namespace Sys2Proof.Machine

theorem Launch.byte_of_font {l : Launch} {a : Nat} (h : a < 80) : l.byte a = l.font a := if_pos h

theorem Launch.byte_of_initMem {l : Launch} {a : Nat} (h : 80 ≤ a) : l.byte a = l.initMem a :=
  if_neg (Nat.not_lt.2 h)

/-- Outside the program's bytes a launch's memory is what the image held before the copy. -/
theorem Launch.read_outside_program {l : Launch} {a : Nat} (ha : a ≤ 0xFFF)
    (h : a < 0x200 ∨ 0x200 + l.program.length ≤ a) :
    (l.bare.mem.writeBytes 0x200 l.program).read a = l.byte a :=
  (Memory.read_writeBytes_outside _ _ _ h).trans (l.bare_mem_read ha)

/-- Settles O17: the start state is `bare` with the program copied, so its registers are the launch's, and an
address reads as the program's byte inside the copy and as the image's byte outside it. -/
theorem launchGivesTheResetState : Obligations.LaunchGivesTheResetState := by
  refine fun l => ⟨fun hle => ?_, Launch.start_of_gt⟩
  refine ⟨_, Launch.start_of_le hle, rfl, rfl, rfl, rfl, rfl, rfl, rfl, rfl, rfl, fun a hfont => ?_,
    fun j hj => ?_, fun a hfont hmem hout => ?_⟩
  · exact (Launch.read_outside_program (by omega) (by omega)).trans (Launch.byte_of_font hfont)
  · exact Memory.read_writeBytes_inside l.bare_mem_wf l.program (by omega) j hj
  · exact (Launch.read_outside_program hmem hout).trans (Launch.byte_of_initMem hfont)

end Sys2Proof.Machine
end
